-- ==== Sys2Proof/Word.lean ====
section
/-! DEFINITION. The word types of PFC-CMD-1: 32-bit registers (`REG_BITS`, 00_scope.md R7) and bytes (R8). -/

namespace Sys2Proof

/-- A 32-bit register value (00_scope.md R7, `REG_BITS` = 32). -/
abbrev Word := BitVec 32

/-- A byte is 8 bits (00_scope.md R8). -/
abbrev Byte := BitVec 8

end Sys2Proof
end

