-- ==== Sys2Proof/Syntax.lean ====
section
/-! DEFINITION. The commands of PFC-CMD-1 (30_encoding.md R72), the fields of a command word (R70),
what the decoder answers (R79), the register names of the window (10_state.md R21) and the lines of the
host's assembly language (R77). -/

namespace Sys2Proof

/-- The eight commands, one constructor per row of spec/opcode_table.json (30_encoding.md R72). A command
carries no operand: it reads the latched ARG registers (R73). -/
inductive Instr where
  /-- ENUM, 40_registry.md R103. -/
  | enum
  /-- ISSUP, R104. -/
  | issup
  /-- LOOKUP, R105. -/
  | lookup
  /-- RESOLVE, 41_stride_resolver.md R122. -/
  | resolve
  /-- SETVT, 43_session.md R181. -/
  | setvt
  /-- CONVERT, 43_session.md R185. -/
  | convert
  /-- SENUM, 40_registry.md R106. -/
  | senum
  /-- SISSUP, R107. -/
  | sissup
deriving DecidableEq, Repr

/-- The two fields of a command word, format CMDW (30_encoding.md R70). -/
structure Cmdw where
  opcode : BitVec 8
  rsvd   : BitVec 24
deriving DecidableEq, Repr

/-- Why a command word is illegal (30_encoding.md R71, R75). -/
inductive IllegalWord where
  /-- RSVD != 0, whatever the OPCODE (R71). -/
  | reservedBits
  /-- RSVD = 0 and an OPCODE outside 0x01..0x08 (R75). -/
  | unknownOpcode (op : BitVec 8)
deriving DecidableEq, Repr

/-- What the decoder answers on a 32-bit word (30_encoding.md R79): total, and an illegal word is named. -/
inductive Decoded where
  | command (i : Instr)
  | illegal (why : IllegalWord)
deriving DecidableEq, Repr

/-- The registers of the window (10_state.md R21). An offset that is none of theirs is reserved (R35). -/
inductive Reg where
  | cmd
  | status
  | result0
  | arg (i : Fin 7)
  | sessValid
  | sessFormat
  | sessKernel
  | sessWidth
  | sessHeight
  | sessSrcStride
  | sessDstStride
  | sessInterlace
  | sessParNum
  | sessParDen
deriving DecidableEq, Repr

/-- The format names the assembly language allows for an identifier (30_encoding.md R77). -/
inductive Format where
  | rgb32
  | rgb24
  | yuy2
  | nv12
deriving DecidableEq, Repr

/-- An operand of an assembly line: an integer or a format name (30_encoding.md R77). DESIGN CHOICE, log 22: the integer
may be negative, and the name may stand, at every operand and WR value. -/
inductive AsmOperand where
  | num (v : Int)
  | fmt (f : Format)
deriving DecidableEq, Repr

/-- A line of the assembly language (30_encoding.md R77): a command with its operands in ARG order, or one of
the three host primitives WR, RD and WAIT. -/
inductive AsmLine where
  | command (i : Instr) (ops : List AsmOperand)
  | wr (r : Reg) (v : AsmOperand)
  | rd (r : Reg)
  | wait
deriving DecidableEq, Repr

end Sys2Proof
end

