-- ==== Sys2Proof/WellFormed.lean ====
section
/-! DEFINITION. Which command words, commands and assembly lines are well-formed. -/

namespace Sys2Proof

/-- RSVD must be 0 (30_encoding.md R70, R71). -/
def Cmdw.rsvdOk (c : Cmdw) : Bool :=
  c.rsvd == 0#24

/-- OPCODE is one of 0x01..0x08 (30_encoding.md R72, R75). -/
def Cmdw.opcodeOk (c : Cmdw) : Bool :=
  decide (0x01 ≤ c.opcode.toNat) && decide (c.opcode.toNat ≤ 0x08)

/-- A command word is legal: both of its fields are (30_encoding.md R72). -/
def Cmdw.wellFormed (c : Cmdw) : Bool :=
  c.rsvdOk && c.opcodeOk

/-- A command has no field that could be out of range: its operands are registers, and their values are checked
by the command itself (30_encoding.md R73, R76). So every command is well-formed. -/
def Instr.wellFormed : Instr → Bool
  | .enum => true
  | .issup => true
  | .lookup => true
  | .resolve => true
  | .setvt => true
  | .convert => true
  | .senum => true
  | .sissup => true

/-- How many operand registers each command reads, ARG0 upward (30_encoding.md R73). -/
def Instr.arity : Instr → Nat
  | .enum => 1
  | .issup => 1
  | .lookup => 1
  | .resolve => 3
  | .setvt => 7
  | .convert => 4
  | .senum => 1
  | .sissup => 1

/-- An assembly line gives a command at most the operands it reads; omitted trailing ones are 0
(30_encoding.md R77). -/
def AsmLine.wellFormed : AsmLine → Bool
  | .command i ops => decide (ops.length ≤ i.arity)
  | .wr _ _ => true
  | .rd _ => true
  | .wait => true

end Sys2Proof
end

