-- ==== Sys2Proof/Decode.lean ====
section
/-! DEFINITION. The decoder of command words (30_encoding.md R79), total and rejecting by name, and the
encoder (R70, R72). -/

namespace Sys2Proof

/-- A row of the opcode map: a word decodes to `instr` when the bits under `mask` are `pattern`
(30_encoding.md R72, spec/opcode_table.json). -/
structure OpcodeRow where
  mask    : Word
  pattern : Word
  instr   : Instr
deriving DecidableEq, Repr

/-- The opcode map (30_encoding.md R72, R79). "Matching is on all 32 bits (mask 0xFFFFFFFF)." -/
def opcodeRows : List OpcodeRow :=
  [ ⟨0xFFFFFFFF#32, 0x00000001#32, .enum⟩,
    ⟨0xFFFFFFFF#32, 0x00000002#32, .issup⟩,
    ⟨0xFFFFFFFF#32, 0x00000003#32, .lookup⟩,
    ⟨0xFFFFFFFF#32, 0x00000004#32, .resolve⟩,
    ⟨0xFFFFFFFF#32, 0x00000005#32, .setvt⟩,
    ⟨0xFFFFFFFF#32, 0x00000006#32, .convert⟩,
    ⟨0xFFFFFFFF#32, 0x00000007#32, .senum⟩,
    ⟨0xFFFFFFFF#32, 0x00000008#32, .sissup⟩ ]

/-- The word matches the row. -/
def OpcodeRow.hits (r : OpcodeRow) (w : Word) : Bool :=
  (w &&& r.mask) == r.pattern

/-- The fields of a command word (30_encoding.md R70): OPCODE is bits [7:0], RSVD is bits [31:8]. -/
def Cmdw.ofWord (w : Word) : Cmdw :=
  ⟨w.extractLsb' 0 8, w.extractLsb' 8 24⟩

/-- The word with the given fields: RSVD above OPCODE (30_encoding.md R70; `||` of 00_scope.md R8). -/
def Cmdw.toWord (c : Cmdw) : Word :=
  c.rsvd ++ c.opcode

/-- Why a word that matches no row is illegal (30_encoding.md R71, R75). -/
def illegalReason (w : Word) : IllegalWord :=
  if (Cmdw.ofWord w).rsvd = 0#24 then .unknownOpcode (Cmdw.ofWord w).opcode else .reservedBits

/-- `Decode(w)` (30_encoding.md R79). -/
def decode (w : Word) : Decoded :=
  match opcodeRows.find? (fun r => r.hits w) with
  | some r => .command r.instr
  | none => .illegal (illegalReason w)

/-- The OPCODE of each command (30_encoding.md R72). -/
def Instr.opcode : Instr → BitVec 8
  | .enum => 0x01#8
  | .issup => 0x02#8
  | .lookup => 0x03#8
  | .resolve => 0x04#8
  | .setvt => 0x05#8
  | .convert => 0x06#8
  | .senum => 0x07#8
  | .sissup => 0x08#8

/-- The command word of a command: its OPCODE with RSVD = 0 (30_encoding.md R70). -/
def encode (i : Instr) : Word :=
  Cmdw.toWord ⟨i.opcode, 0#24⟩

/-- The command the decoder reads from a word numbered as spec/opcode_table.json numbers it (bit 0 least
significant). "Every command is exactly 32 bits long" (30_encoding.md R70), so a number that needs more bits is no
command word. Bits above `nbits` are 0. -/
def decodeTableWord (nbits w : Nat) : Option Instr :=
  if w % 2 ^ nbits < 2 ^ 32 then
    match decode (BitVec.ofNat 32 (w % 2 ^ nbits)) with
    | .command i => some i
    | .illegal _ => none
  else none

end Sys2Proof
end

