-- ==== Sys2Proof/Config.lean ====
section
/-! DEFINITION. The parameters of one machine (00_scope.md R7) and the free values: what the spec leaves open. -/

namespace Sys2Proof

/-- The parameters the spec leaves open (00_scope.md R7; 93_implementation_defined.md I9). They are fixed for one
machine: no step writes them. State holds them, so that a statement about every state is one about every value of
them. -/
structure Config where
  /-- `MAX_DIM`, the largest accepted width and height (R7, D8). -/
  maxDim  : Nat
  /-- `REG_BASE`, where the register window lies (20_memory.md R65, D2). -/
  regBase : Nat
deriving DecidableEq, Repr

/-- The limits the spec sets on the parameters: "any integer with 2 <= MAX_DIM <= 536870911" (00_scope.md R7),
and a 256-byte-aligned REG_BASE (20_memory.md R65). -/
def Config.wellFormed (c : Config) : Bool :=
  decide (2 ≤ c.maxDim) && decide (c.maxDim ≤ 536870911) && decide (c.regBase % 256 = 0)

/-- FREE VALUE. How many host moves come between the issue of a command and its completion: "any finite number of
steps" (70_reset_and_hazards.md R245, I8). The argument is the number of free values drawn before. Log 2. -/
opaque Config.latency : Nat → Nat

/-- FREE VALUE. A byte the spec calls "any value" (70_reset_and_hazards.md R232; 93_implementation_defined.md I4,
I6). The argument is the number of free values drawn before. Logs 9 and 11. -/
opaque Config.freeByte : Nat → Byte

end Sys2Proof
end

