-- ==== Sys2Proof/Machine/State.lean ====
section
/-! DEFINITION. The state of the block and its host (10_state.md, 20_memory.md), as plain data; why a step can stop;
the state after reset (10_state.md R38). -/

namespace Sys2Proof.Machine

/-- The operand file: seven 32-bit registers (10_state.md R22). Also the shape of the latched copies (R37). -/
structure Args where
  arg0 : Word
  arg1 : Word
  arg2 : Word
  arg3 : Word
  arg4 : Word
  arg5 : Word
  arg6 : Word
deriving DecidableEq, Repr

/-- The values of STATUS.CODE that exist (60_exceptions.md R200). Codes 7 to 15 are "never written". -/
inductive Status where
  | ok
  | unsupportedFormat
  | geometryError
  | noMoreFormats
  | notReady
  | bufferError
  | illegalCommand
deriving DecidableEq, Repr

/-- The closed set of four kernels (40_registry.md R101); SESS_KERNEL names one (10_state.md R28). -/
inductive Kernel where
  | passthrough
  | rgb24
  | yuv422
  | yuv420
deriving DecidableEq, Repr

/-- The ten session registers (10_state.md R26 to R32). -/
structure Session where
  valid     : Bool
  format    : Word
  kernel    : Kernel
  width     : Word
  height    : Word
  srcStride : Word
  dstStride : Word
  interlace : BitVec 1
  parNum    : Word
  parDen    : Word
deriving DecidableEq, Repr

/-- The bytes of a window that are not zero, by offset, strictly rising. A byte not listed is zero (log 12). -/
abbrev Memory := List Host.Cell

/-- A window of host memory bound to a port (20_memory.md R50): how many bytes it has, and their contents. -/
structure Window where
  len   : Nat
  bytes : Memory
deriving DecidableEq, Repr

/-- One move of the host (10_state.md R20, 60_exceptions.md R213). Addresses of `store` and `load` are those of the
host's bus, where the register window lies at REG_BASE (20_memory.md R65); offsets of the others count from the
start of a window. -/
inductive HostEvent where
  /-- A store of `size` bytes; WR is an aligned one of 4 (30_encoding.md R77). -/
  | store (addr size : Nat) (v : Word)
  /-- A load of `size` bytes; RD is an aligned one of 4 (R77). -/
  | load (addr size : Nat)
  /-- WAIT: load STATUS until BUSY = 0 (R77). -/
  | wait
  /-- The host binds a source window that holds these bytes (20_memory.md R50). -/
  | bindSrc (bytes : List Byte)
  /-- The host binds a destination window that holds these bytes (R50). -/
  | bindDst (bytes : List Byte)
  /-- The host writes one byte of its source window. -/
  | srcStore (off : Nat) (v : Byte)
  /-- The host reads one byte of its source window. -/
  | srcLoad (off : Nat)
  /-- The host writes one byte of its destination window. -/
  | dstStore (off : Nat) (v : Byte)
  /-- The host reads one byte of its destination window. -/
  | dstLoad (off : Nat)
  /-- The reset input RST is active, or power comes on (70_reset_and_hazards.md R230). -/
  | rst
deriving DecidableEq, Repr

/-- The whole state. Every field is the spec's (INVENTORY.md, State), but for the last five, which are the model's
own and hold what the host does and when. -/
structure State where
  /-- MAX_DIM and REG_BASE, never written (00_scope.md R7). -/
  cfg       : Config
  /-- The command word being executed (10_state.md R37). -/
  cmd       : Word
  /-- STATUS.CODE (R25). -/
  code      : Status
  /-- STATUS.BUSY (R25). -/
  busy      : Bool
  /-- RESULT0 (R23). -/
  result0   : Word
  /-- ARG0 to ARG6 (R22). -/
  args      : Args
  /-- The latched copies, `ARG[0]` to `ARG[6]` in the pseudocode (R22, R37). -/
  latched   : Args
  /-- SESS_VALID to SESS_PAR_DEN (R26). -/
  session   : Session
  /-- The source window (20_memory.md R51). -/
  src       : Window
  /-- The destination window (20_memory.md R52). -/
  dst       : Window
  /-- Model's own: host moves that still come before the pending command completes (log 2). -/
  delay     : Nat
  /-- Model's own: the host broke its duty (70_reset_and_hazards.md R241) during the pending CONVERT (log 9). -/
  disturbed : Bool
  /-- Model's own: what the host's last load returned (log 13). -/
  readData  : Word
  /-- Model's own: the host's moves to come, first one first (log 1). -/
  input     : List HostEvent
  /-- Model's own: how many free values have been drawn (log 13). -/
  draws     : Nat
deriving DecidableEq, Repr

/-- Why the machine stops with a fault. The block has no fault state of its own (60_exceptions.md R214): both are
unreachable from a state that meets `State.Inv`. -/
inductive Fault where
  /-- Raised by a port access outside its window, where `SrcRead` and `DstWrite` are not defined (20_memory.md R51,
  R52; log 16). Safe. -/
  | portRange
  /-- Raised by CONVERT when SESS_VALID = 1 and SESS_FORMAT is not registered, where `Bpp` is not defined
  (41_stride_resolver.md R120); 10_state.md R28 rules such a session out. Safe. -/
  | unregisteredSession
deriving DecidableEq, Repr

/-- Why the model gives a step no meaning. -/
inductive Refusal where
  /-- A command without a meaning. No arm of `exec` answers it. Safe. -/
  | notModelled (mnemonic : String)
  /-- Raised by a host access to the register window that is not an aligned 32-bit one: "refused" (20_memory.md
  R54, 60_exceptions.md R214). Safe. -/
  | registerAccess
  /-- Raised by a host store or load that does not touch the register window: it is no access to this block
  (20_memory.md R65, log 6). Safe. -/
  | outsideWindow
  /-- Raised by a CONVERT that would run on a window declared longer than the memory the host bound: "refuse"
  (93_implementation_defined.md I2). Safe. -/
  | windowNotBound
  /-- Raised by a host access to a byte beyond its bound window (log 8). Safe. -/
  | hostMemory
  /-- Raised when the host binds a window while a CONVERT runs: the spec gives it no meaning
  (70_reset_and_hazards.md R241, log 10). Safe. -/
  | rebindDuringConvert
deriving DecidableEq, Repr

/-- Every operand register 0 (10_state.md R38). -/
def Args.reset : Args := ⟨0#32, 0#32, 0#32, 0#32, 0#32, 0#32, 0#32⟩

/-- Every session register 0 (10_state.md R38); kernel tag 0 is passthrough. -/
def Session.reset : Session :=
  { valid := false, format := 0#32, kernel := .passthrough, width := 0#32, height := 0#32,
    srcStride := 0#32, dstStride := 0#32, interlace := 0#1, parNum := 0#32, parDen := 0#32 }

/-- No window bound (log 8). -/
def Window.none : Window := ⟨0, []⟩

/-- The parameters `State.reset` takes: the spec's default for MAX_DIM (00_scope.md R7, log 4), and 0 for REG_BASE
(DESIGN CHOICE, log 5). -/
def Config.default : Config := ⟨65535, 0⟩

/-- The machine right after reset (10_state.md R38, 70_reset_and_hazards.md R231): every register and hidden latch 0,
idle. DESIGN CHOICE, logs 1, 2, 8, 9, 13: no window bound, no host move to come, the model's own fields 0. -/
def State.reset : State :=
  { cfg := Config.default
    cmd := 0#32
    code := .ok
    busy := false
    result0 := 0#32
    args := Args.reset
    latched := Args.reset
    session := Session.reset
    src := Window.none
    dst := Window.none
    delay := 0
    disturbed := false
    readData := 0#32
    input := []
    draws := 0 }

end Sys2Proof.Machine
end

