-- ==== Sys2Proof/Machine/Operands.lean ====
section
/-! DEFINITION. How an operand is read from its latched register (30_encoding.md R74). -/

namespace Sys2Proof.Machine

/-- `zext_32` (00_scope.md R9). -/
def zext32 (w : Word) : Nat := w.toNat

/-- `sext_32` (00_scope.md R9). -/
def sext32 (w : Word) : Int := w.toInt

/-- The low 32 bits of a value's two's-complement form, as a register takes it (00_scope.md R9). -/
def low32 (v : Int) : Word := BitVec.ofInt 32 v

/-- `even(v)` (00_scope.md R9). -/
def even (v : Nat) : Bool := v % 2 == 0

/-- The operand registers by number (10_state.md R22). -/
def Args.get (a : Args) : Fin 7 → Word
  | 0 => a.arg0
  | 1 => a.arg1
  | 2 => a.arg2
  | 3 => a.arg3
  | 4 => a.arg4
  | 5 => a.arg5
  | 6 => a.arg6

/-- The operand file with register `i` set (10_state.md R22). -/
def Args.set (a : Args) (i : Fin 7) (v : Word) : Args :=
  match i with
  | 0 => { a with arg0 := v }
  | 1 => { a with arg1 := v }
  | 2 => { a with arg2 := v }
  | 3 => { a with arg3 := v }
  | 4 => { a with arg4 := v }
  | 5 => { a with arg5 := v }
  | 6 => { a with arg6 := v }

/-- The stride in force when operand `w` may replace `other`: "the value 0 means none" (30_encoding.md R74,
43_session.md R186). -/
def strideOr (w : Word) (other : Int) : Int :=
  if sext32 w ≠ 0 then sext32 w else other

/-- The interlace hint (43_session.md R183): 0 and 1 are progressive, 2 is interlaced, any other value illegal. -/
def interlaceHint (il : Nat) : Option (BitVec 1) :=
  if 2 < il then none else if il = 2 then some 1#1 else some 0#1

/-- The pixel aspect ratio hint (43_session.md R184): a 0 in either term means none, and 1/1 is stored. -/
def parHint (pn pd : Word) : Word × Word :=
  if pn = 0#32 ∨ pd = 0#32 then (1#32, 1#32) else (pn, pd)

end Sys2Proof.Machine
end

