-- ==== Sys2Proof/Machine/Ops.lean ====
section
/-! DEFINITION. The named operations: one byte of a window, the ports of a running CONVERT (20_memory.md R51, R52),
the loop of the pseudocode (00_scope.md R10), the issue of a command (10_state.md R34) and the two ways it ends
(60_exceptions.md R202, R203), and reset (70_reset_and_hazards.md R231). -/

namespace Sys2Proof.Machine

/-! ### Memory -/

/-- What a byte of a window reads as when it is not listed (log 12). -/
def unlisted : Byte := 0#8

/-- The byte at an offset. -/
def memRead : Memory → Nat → Byte
  | [], _ => unlisted
  | (b, u) :: m, a => if a = b then u else memRead m a

/-- The memory with the byte at an offset set, in the canonical form again. -/
def memWrite : Memory → Nat → Byte → Memory
  | [], a, v => if v = unlisted then [] else [(a, v)]
  | (b, u) :: m, a, v =>
    if a < b then (if v = unlisted then (b, u) :: m else (a, v) :: (b, u) :: m)
    else if a = b then (if v = unlisted then m else (a, v) :: m)
    else (b, u) :: memWrite m a v

/-- The canonical form from an offset on: offsets strictly rising from `lo`, below `hi`, no entry `unlisted`. -/
def memWfFrom (lo hi : Nat) : Memory → Bool
  | [] => true
  | (b, u) :: m => decide (lo ≤ b) && decide (b < hi) && (u != unlisted) && memWfFrom (b + 1) hi m

/-- The contents of a window that holds the given bytes from offset `a` on. -/
def memOfBytes (a : Nat) : List Byte → Memory
  | [] => []
  | v :: vs => if v = unlisted then memOfBytes (a + 1) vs else (a, v) :: memOfBytes (a + 1) vs

/-- The canonical form of a window: strictly rising offsets inside the window, no entry equal to what an unlisted
offset reads as. -/
def Window.wf (w : Window) : Bool := memWfFrom 0 w.len w.bytes

/-- The window that holds the given bytes. -/
def Window.ofBytes (vs : List Byte) : Window := ⟨vs.length, memOfBytes 0 vs⟩

/-- The window with the byte at an offset set. -/
def Window.write (w : Window) (off : Nat) (v : Byte) : Window := { w with bytes := memWrite w.bytes off v }

/-- The byte of a window at an offset. -/
def Window.read (w : Window) (off : Nat) : Byte := memRead w.bytes off

/-! ### Loops -/

/-- `for i in 0..n-1: body` (00_scope.md R10), upward, ending early when a port access is out of its window. -/
def forUp {σ : Type} : Nat → (Nat → σ → Option σ) → σ → Option σ
  | 0, _, p => some p
  | n + 1, body, p => (forUp n body p).bind (body n)

/-- `for i in 0..n-1: body` (00_scope.md R10), upward, for a body that always goes on. -/
def loopUp {σ : Type} : Nat → (Nat → σ → σ) → σ → σ
  | 0, _, p => p
  | n + 1, body, p => body n (loopUp n body p)

/-! ### The ports of a running CONVERT -/

/-- The two ports (20_memory.md R50) as a kernel sees them, and the offsets it has read and written so far, last
first (70_reset_and_hazards.md R246). -/
structure Ports where
  srcLen : Nat
  dstLen : Nat
  src    : Memory
  dst    : Memory
  reads  : List Nat
  writes : List Nat
deriving DecidableEq, Repr

/-- `SrcRead(off)`: one byte of the source port, defined for off < SRC_LEN (20_memory.md R51). -/
def srcRead (off : Nat) (p : Ports) : Option (Byte × Ports) :=
  if off < p.srcLen then some (memRead p.src off, { p with reads := off :: p.reads }) else none

/-- `DstWrite(off, v)`: set one byte of the destination port, defined for off < DST_LEN (20_memory.md R52). -/
def dstWrite (off : Nat) (v : Byte) (p : Ports) : Option Ports :=
  if off < p.dstLen then some { p with dst := memWrite p.dst off v, writes := off :: p.writes } else none

/-! ### A command's life -/

/-- A CMD write while BUSY = 0 issues the word it writes, sets BUSY and latches ARG0 to ARG6 (10_state.md R22, R34).
How many host moves come before the completion is a free value (70_reset_and_hazards.md R245, log 2). -/
def State.issue (s : State) (w : Word) : State :=
  { s with cmd := w, busy := true, latched := s.args, delay := Config.latency s.draws, draws := s.draws + 1,
           disturbed := false }

/-- The state right after the issue of `w`, when no host move comes before its completion: the next step completes it
(log 1). -/
def State.place (s : State) (w : Word) : State :=
  { s with cmd := w, busy := true, latched := s.args, delay := 0, disturbed := false }

/-- `complete(r)` (60_exceptions.md R202): CODE = OK, RESULT0 = the low 32 bits of r, BUSY = 0. The command word and the
latched copies stay (DESIGN CHOICE, log 17). -/
def State.complete (s : State) (r : Int) : State :=
  { s with code := .ok, result0 := low32 r, busy := false }

/-- `raise X` (60_exceptions.md R203): CODE = X, RESULT0 = 0, BUSY = 0, "no other write". -/
def State.raise (s : State) (x : Status) : State :=
  { s with code := x, result0 := 0#32, busy := false }

/-- Reset (70_reset_and_hazards.md R231): every register and hidden latch takes its reset value. Memory outside the
block is kept, and so is what belongs to the host (log 20). -/
def State.hardReset (s : State) : State :=
  { State.reset with cfg := s.cfg, src := s.src, dst := s.dst, readData := s.readData, input := s.input,
                     draws := s.draws }

end Sys2Proof.Machine
end

