-- ==== Sys2Proof/Machine/Kernels.lean ====
section
/-! DEFINITION. The colour math (42_kernels.md R140, R141), where image rows lie (20_memory.md R55 to R58), and the
four kernels (42_kernels.md R150, R152, R154, R157). -/

namespace Sys2Proof.Machine

/-! ### Colour math -/

/-- `v >> n`: the arithmetic shift, floor(v / 2^n) (00_scope.md R9). -/
def asr (v : Int) (n : Nat) : Int := v / 2 ^ n

/-- `clip(v) = max(0, min(255, v))` (42_kernels.md R141), a byte. -/
def clip (v : Int) : Byte := BitVec.ofNat 8 (max 0 (min 255 v)).toNat

/-- The three sums of `YCC` before the shift (42_kernels.md R140), red first. -/
def yccSums (y cb cr : Byte) : Int × Int × Int :=
  let c : Int := y.toNat - 16
  let d : Int := cb.toNat - 128
  let e : Int := cr.toNat - 128
  (298 * c + 409 * e + 128, 298 * c - 100 * d - 208 * e + 128, 298 * c + 516 * d + 128)

/-- The three bytes of a pixel. -/
structure Rgb where
  r : Byte
  g : Byte
  b : Byte
deriving DecidableEq, Repr

/-- `YCC(y, cb, cr)` (42_kernels.md R140). -/
def ycc (y cb cr : Byte) : Rgb :=
  ⟨clip (asr (yccSums y cb cr).1 8), clip (asr (yccSums y cb cr).2.1 8), clip (asr (yccSums y cb cr).2.2 8)⟩

/-! ### Rows and planes -/

/-- `RowBase(s, n, i)`: where image row i of an n-row plane of stride s starts (20_memory.md R55). -/
def rowBase (s : Int) (n i : Nat) : Nat :=
  if 0 < s then i * s.natAbs else (n - 1 - i) * s.natAbs

/-- What a CONVERT runs on once its checks have passed (42_kernels.md R145): the kernel, w and h, the strides s and d
in force, and the declared lengths of the two windows. -/
structure Geom where
  kernel : Kernel
  w      : Nat
  h      : Nat
  s      : Int
  d      : Int
  srcLen : Nat
  dstLen : Nat
deriving DecidableEq, Repr

/-- Active bytes of a source row (20_memory.md R56). -/
def Geom.srcActive (g : Geom) : Nat :=
  match g.kernel with
  | .passthrough => 4 * g.w
  | .rgb24 => 3 * g.w
  | .yuv422 => 2 * g.w
  | .yuv420 => g.w

/-- Where the chroma plane of a 4:2:0 frame starts (42_kernels.md R158). -/
def Geom.chromaBase (g : Geom) : Nat := g.h * g.s.natAbs

/-- Where source row i starts. -/
def Geom.srcRow (g : Geom) (i : Nat) : Nat := rowBase g.s g.h i

/-- Where destination row i starts. -/
def Geom.dstRow (g : Geom) (i : Nat) : Nat := rowBase g.d g.h i

/-- Where chroma row j starts (20_memory.md R56). -/
def Geom.chromaRow (g : Geom) (j : Nat) : Nat := g.chromaBase + rowBase g.s (g.h / 2) j

/-- `SrcBytes` (20_memory.md R57). -/
def Geom.srcBytes (g : Geom) : Nat :=
  match g.kernel with
  | .yuv420 => g.h * g.s.natAbs + (g.h / 2) * g.s.natAbs
  | .passthrough => g.h * g.s.natAbs
  | .rgb24 => g.h * g.s.natAbs
  | .yuv422 => g.h * g.s.natAbs

/-- `DstBytes` (20_memory.md R58). -/
def Geom.dstBytes (g : Geom) : Nat := g.h * g.d.natAbs

/-! ### Kernels -/

/-- `PutPixel(off, r, g, b)` (42_kernels.md R146): bytes B, G, R, 0. -/
def putPixel (off : Nat) (c : Rgb) (p : Ports) : Option Ports := do
  let p ← dstWrite (off + 0) c.b p
  let p ← dstWrite (off + 1) c.g p
  let p ← dstWrite (off + 2) c.r p
  dstWrite (off + 3) 0#8 p

/-- The passthrough copy (42_kernels.md R150): all four bytes verbatim (R151). -/
def kernelPassthrough (g : Geom) : Ports → Option Ports :=
  forUp g.h fun i => forUp (4 * g.w) fun b p => do
    let (v, p) ← srcRead (g.srcRow i + b) p
    dstWrite (g.dstRow i + b) v p

/-- RGB24 widening (42_kernels.md R152), source bytes in the order R, G, B (log 19). -/
def kernelRgb24 (g : Geom) : Ports → Option Ports :=
  forUp g.h fun i => forUp g.w fun x p => do
    let (r, p) ← srcRead (g.srcRow i + 3 * x + 0) p
    let (gr, p) ← srcRead (g.srcRow i + 3 * x + 1) p
    let (b, p) ← srcRead (g.srcRow i + 3 * x + 2) p
    putPixel (g.dstRow i + 4 * x) ⟨r, gr, b⟩ p

/-- Packed 4:2:2 decode (42_kernels.md R154), byte order Y0 U Y1 V (R155), with U = Cb and V = Cr (PRESUMED by
the spec itself, 93_implementation_defined.md G1, log 18). -/
def kernelYuv422 (g : Geom) : Ports → Option Ports :=
  forUp g.h fun i => forUp (g.w / 2) fun k p => do
    let (y0, p) ← srcRead (g.srcRow i + 4 * k + 0) p
    let (u, p) ← srcRead (g.srcRow i + 4 * k + 1) p
    let (y1, p) ← srcRead (g.srcRow i + 4 * k + 2) p
    let (v, p) ← srcRead (g.srcRow i + 4 * k + 3) p
    let p ← putPixel (g.dstRow i + 8 * k + 0) (ycc y0 u v) p
    putPixel (g.dstRow i + 8 * k + 4) (ycc y1 u v) p

/-- Planar 4:2:0 decode (42_kernels.md R157), chroma pairs (Cb, Cr) from the chroma plane (R158). -/
def kernelYuv420 (g : Geom) : Ports → Option Ports :=
  forUp (g.h / 2) fun j => forUp (g.w / 2) fun k p => do
    let (y0, p) ← srcRead (g.srcRow (2 * j) + 2 * k) p
    let (y1, p) ← srcRead (g.srcRow (2 * j) + 2 * k + 1) p
    let (y2, p) ← srcRead (g.srcRow (2 * j + 1) + 2 * k) p
    let (y3, p) ← srcRead (g.srcRow (2 * j + 1) + 2 * k + 1) p
    let (cb, p) ← srcRead (g.chromaRow j + 2 * k) p
    let (cr, p) ← srcRead (g.chromaRow j + 2 * k + 1) p
    let p ← putPixel (g.dstRow (2 * j) + 8 * k + 0) (ycc y0 cb cr) p
    let p ← putPixel (g.dstRow (2 * j) + 8 * k + 4) (ycc y1 cb cr) p
    let p ← putPixel (g.dstRow (2 * j + 1) + 8 * k + 0) (ycc y2 cb cr) p
    putPixel (g.dstRow (2 * j + 1) + 8 * k + 4) (ycc y3 cb cr) p

/-- The kernel SESS_KERNEL names (43_session.md R188). -/
def runKernel (g : Geom) : Ports → Option Ports :=
  match g.kernel with
  | .passthrough => kernelPassthrough g
  | .rgb24 => kernelRgb24 g
  | .yuv422 => kernelYuv422 g
  | .yuv420 => kernelYuv420 g

/-- Every active destination byte (20_memory.md R59) below offset `len`, set to a free value
(70_reset_and_hazards.md R232, 93_implementation_defined.md I4, I6); `n` free values were drawn before. -/
def scrambleActive (g : Geom) (len n : Nat) : Memory → Memory :=
  loopUp g.h fun i => loopUp (4 * g.w) fun b m =>
    if g.dstRow i + b < len then memWrite m (g.dstRow i + b) (Config.freeByte (n + (i * (4 * g.w) + b))) else m

end Sys2Proof.Machine
end

