-- ==== Sys2Proof/Machine/Flags.lean ====
section
/-! DEFINITION. STATUS: its code and its word (10_state.md R25, 60_exceptions.md R200); the kernel tag
(40_registry.md R100); register images of narrow fields (10_state.md R35). -/

namespace Sys2Proof.Machine

/-- The numbers of the status codes (60_exceptions.md R200). -/
def Status.toCode : Status → BitVec 4
  | .ok => 0#4
  | .unsupportedFormat => 1#4
  | .geometryError => 2#4
  | .noMoreFormats => 3#4
  | .notReady => 4#4
  | .bufferError => 5#4
  | .illegalCommand => 6#4

/-- The kernel tags (40_registry.md R100). -/
def Kernel.tag : Kernel → BitVec 2
  | .passthrough => 0#2
  | .rgb24 => 1#2
  | .yuv422 => 2#2
  | .yuv420 => 3#2

/-- A one-bit field in bit [0], the rest read 0 (10_state.md R27, R35); also the results 1 and 0 of ISSUP
(40_registry.md R104). -/
def bitWord (b : Bool) : Word :=
  if b then 1#32 else 0#32

/-- The word STATUS reads as: BUSY at [31], CODE at [3:0], [30:4] read 0 (10_state.md R25). -/
def statusWord (busy : Bool) (code : Status) : Word :=
  BitVec.ofBool busy ++ 0#27 ++ code.toCode

end Sys2Proof.Machine
end

