-- ==== Sys2Proof/Machine/Registry.lean ====
section
/-! DEFINITION. The format registry: its ROM (10_state.md R33), its queries (40_registry.md R100) and its commands
ENUM, ISSUP, LOOKUP, SENUM, SISSUP (R103 to R107). -/

namespace Sys2Proof.Machine

/-- FMT_RGB32 (10_state.md R33, 92_eei_decisions.md D6). PRESUMED by the spec itself, log 7. -/
def fmtRgb32 : Word := 0x00000016#32
/-- FMT_RGB24 (R33, D6). -/
def fmtRgb24 : Word := 0x00000014#32
/-- FMT_YUY2 (R33, D6). -/
def fmtYuy2 : Word := 0x32595559#32
/-- FMT_NV12 (R33, D6). -/
def fmtNv12 : Word := 0x3231564E#32

/-- One entry of the registry: identifier, bytes per pixel (41_stride_resolver.md R120) and kernel. -/
structure RegistryEntry where
  id     : Word
  bpp    : Nat
  kernel : Kernel
deriving DecidableEq, Repr

/-- The registry ROM, in registration order (10_state.md R33, 40_registry.md R102). No command and no reset writes
it, so it is a constant. -/
def rom : List RegistryEntry :=
  [ ⟨fmtRgb32, 4, .passthrough⟩,
    ⟨fmtRgb24, 3, .rgb24⟩,
    ⟨fmtYuy2, 2, .yuv422⟩,
    ⟨fmtNv12, 1, .yuv420⟩ ]

/-- The entry of an identifier, if it is registered; identifiers are compared by equality on all 32 bits
(30_encoding.md R74, 40_registry.md R104). -/
def entryOf (id : Word) : Option RegistryEntry := rom.find? (fun e => e.id == id)

/-- `Registered(id)` (40_registry.md R100). -/
def registered (id : Word) : Bool := rom.any (fun e => e.id == id)

/-- `Index(id)` (40_registry.md R100), for a registered identifier. -/
def indexOf (id : Word) : Nat := rom.findIdx (fun e => e.id == id)

/-- `Subsampled(id)` holds for FMT_YUY2 and FMT_NV12 and for no other identifier (41_stride_resolver.md R120). -/
def subsampled (id : Word) : Bool := id == fmtYuy2 || id == fmtNv12

/-- The pseudocode of ENUM and SENUM (40_registry.md R103, R106). -/
def enumerate (s : State) : State :=
  match rom[zext32 s.latched.arg0]? with
  | none => s.raise .noMoreFormats
  | some e => s.complete (zext32 e.id)

/-- The pseudocode of ISSUP and SISSUP (40_registry.md R104, R107). -/
def isSupported (s : State) : State :=
  s.complete (if registered s.latched.arg0 then 1 else 0)

/-- ENUM: the identifier at a registry position (40_registry.md R103). -/
def execEnum (s : State) : Host.Outcome State Fault Refusal := .next (enumerate s)

/-- ISSUP: whether an identifier is registered (40_registry.md R104). -/
def execIssup (s : State) : Host.Outcome State Fault Refusal := .next (isSupported s)

/-- LOOKUP: the kernel of a registered identifier (40_registry.md R105). It selects none. -/
def execLookup (s : State) : Host.Outcome State Fault Refusal :=
  match entryOf s.latched.arg0 with
  | none => .next (s.raise .unsupportedFormat)
  | some e => .next (s.complete e.kernel.tag.toNat)

/-- SENUM: the session-level enumeration, "exactly the pseudocode of rule R103" (40_registry.md R106). -/
def execSenum (s : State) : Host.Outcome State Fault Refusal := .next (enumerate s)

/-- SISSUP: the session-level membership test, "exactly the pseudocode of rule R104" (40_registry.md R107). -/
def execSissup (s : State) : Host.Outcome State Fault Refusal := .next (isSupported s)

end Sys2Proof.Machine
end

