-- ==== Sys2Proof/Machine/Stride.lean ====
section
/-! DEFINITION. The stride resolver (41_stride_resolver.md R121) and its command RESOLVE (R122). -/

namespace Sys2Proof.Machine

/-- `ResolveStride(id, w, x)` (41_stride_resolver.md R121); `none` is GEOMETRY_ERROR. "Every check is made whether or
not x is present", and an explicit stride is returned unchanged. -/
def resolveStride (cfg : Config) (id : Word) (w : Nat) (x : Int) : Option Int :=
  match entryOf id with
  | none => none
  | some e =>
    if w = 0 then none
    else if cfg.maxDim < w then none
    else if subsampled id && !even w then none
    else if x ≠ 0 then some x
    else some (e.bpp * w)

/-- RESOLVE: resolve a stride without touching the session (41_stride_resolver.md R122). -/
def execResolve (s : State) : Host.Outcome State Fault Refusal :=
  match resolveStride s.cfg s.latched.arg0 (zext32 s.latched.arg1) (sext32 s.latched.arg2) with
  | none => .next (s.raise .geometryError)
  | some r => .next (s.complete r)

end Sys2Proof.Machine
end

