-- ==== Sys2Proof/Machine/Session.lean ====
section
/-! DEFINITION. The session commands: the geometry invariant (43_session.md R180), SETVT (R181 to R184) and CONVERT
(R185 to R190). -/

namespace Sys2Proof.Machine

/-- `ValidGeometry(id, w, h, s)` (43_session.md R180). -/
def validGeometry (cfg : Config) (id : Word) (w h : Nat) (s : Int) : Bool :=
  match entryOf id with
  | none => false
  | some e =>
    decide (1 ≤ w) && decide (w ≤ cfg.maxDim) && decide (1 ≤ h) && decide (h ≤ cfg.maxDim)
      && (!subsampled id || even w) && (!(id == fmtNv12) || even h)
      && decide (s ≠ 0) && decide (e.bpp * w ≤ s.natAbs)

/-! ### SETVT -/

/-- What SETVT's checks come to: the status it raises, or the session it stores and the stride it returns. -/
inductive Negotiation where
  | raises (x : Status)
  | stores (ss : Session) (r : Int)
deriving DecidableEq, Repr

/-- The checks of SETVT in their order and the session it stores (43_session.md R181, 60_exceptions.md R205). -/
def negotiate (cfg : Config) (a : Args) : Negotiation :=
  let id := a.arg0
  let w := zext32 a.arg1
  let h := zext32 a.arg2
  match entryOf id with
  | none => .raises .unsupportedFormat
  | some e =>
    match resolveStride cfg id w (sext32 a.arg3) with
    | none => .raises .geometryError
    | some r =>
      if h = 0 ∨ cfg.maxDim < h then .raises .geometryError
      else if id = fmtNv12 ∧ ¬ even h then .raises .geometryError
      else if r.natAbs < e.bpp * w then .raises .geometryError
      else
        match interlaceHint (zext32 a.arg4) with
        | none => .raises .geometryError
        | some mode =>
          .stores
            { valid := true, format := id, kernel := e.kernel, width := low32 w, height := low32 h,
              srcStride := low32 r, dstStride := low32 (4 * w), interlace := mode,
              parNum := (parHint a.arg5 a.arg6).1, parDen := (parHint a.arg5 a.arg6).2 }
            r

/-- SETVT: select a format and store the geometry (43_session.md R181), all or nothing (R182). -/
def execSetvt (s : State) : Host.Outcome State Fault Refusal :=
  match negotiate s.cfg s.latched with
  | .raises x => .next (s.raise x)
  | .stores ss r => .next ({ s with session := ss }.complete r)

/-! ### CONVERT -/

/-- What CONVERT's checks come to: the status it raises, a session whose format is not registered (which
10_state.md R28 rules out), or what its kernel runs on. -/
inductive ConvertCheck where
  | raises (x : Status)
  | unregistered
  | runs (g : Geom)
deriving DecidableEq, Repr

/-- What a CONVERT would run on, before the strides and lengths are checked (43_session.md R185, R186). -/
def convertGeom (ss : Session) (a : Args) : Geom :=
  { kernel := ss.kernel
    w := zext32 ss.width
    h := zext32 ss.height
    s := strideOr a.arg0 (sext32 ss.srcStride)
    d := strideOr a.arg1 (sext32 ss.dstStride)
    srcLen := zext32 a.arg2
    dstLen := zext32 a.arg3 }

/-- What CONVERT works on in a state: SESS_KERNEL, w, h, the strides in force and the declared lengths
(43_session.md R185). -/
abbrev State.geom (s : State) : Geom := convertGeom s.session s.latched

/-- `src_need` of CONVERT's pseudocode, by the format in the session (43_session.md R185, 20_memory.md R57). -/
def srcNeed (id : Word) (h : Nat) (s : Int) : Nat :=
  if id = fmtNv12 then h * s.natAbs + (h / 2) * s.natAbs else h * s.natAbs

/-- The checks of CONVERT in their order (43_session.md R185, 60_exceptions.md R205). -/
def convertCheck (ss : Session) (a : Args) : ConvertCheck :=
  let g := convertGeom ss a
  if ss.valid = false then .raises .notReady
  else
    match entryOf ss.format with
    | none => .unregistered
    | some e =>
      if g.s.natAbs < e.bpp * g.w then .raises .geometryError
      else if g.d.natAbs < 4 * g.w then .raises .geometryError
      else if g.srcLen < srcNeed ss.format g.h g.s then .raises .bufferError
      else if g.dstLen < g.h * g.d.natAbs then .raises .bufferError
      else .runs g

/-- The ports of a CONVERT at its start (20_memory.md R50). -/
def State.ports (s : State) (g : Geom) : Ports :=
  { srcLen := g.srcLen, dstLen := g.dstLen, src := s.src.bytes, dst := s.dst.bytes, reads := [], writes := [] }

/-- The state with the contents of the destination window replaced. -/
def State.withDst (s : State) (m : Memory) : State := { s with dst := { s.dst with bytes := m } }

/-- The state with every active byte of the destination window, which is DST_LEN bytes (60_exceptions.md R213), set to a
free value (70_reset_and_hazards.md R232; 93_implementation_defined.md I4, I6; log 11). -/
def State.scramble (s : State) (g : Geom) : State :=
  { s with dst := { s.dst with bytes := scrambleActive g (min s.dst.len g.dstLen) s.draws s.dst.bytes }
           draws := s.draws + g.h * (4 * g.w) }

/-- The windows the host declared are no longer than the memory it bound (93_implementation_defined.md I2). -/
def State.windowsBound (s : State) (g : Geom) : Bool :=
  decide (g.srcLen ≤ s.src.len) && decide (g.dstLen ≤ s.dst.len)

/-- The body of CONVERT when every check has passed (43_session.md R188): run the kernel and complete with 0. When
the host broke its duty during this CONVERT, the active destination bytes are any value
(93_implementation_defined.md I4). -/
def convertFrame (g : Geom) (s : State) : Host.Outcome State Fault Refusal :=
  if s.windowsBound g then
    match runKernel g (s.ports g) with
    | none => .fault .portRange
    | some p => if s.disturbed then .next ((s.scramble g).complete 0) else .next ((s.withDst p.dst).complete 0)
  else .refused .windowNotBound

/-- CONVERT: convert one frame (43_session.md R185). DEDUCED from 20_memory.md R60, log 3: the whole frame is done in
the completing step. -/
def execConvert (s : State) : Host.Outcome State Fault Refusal :=
  match convertCheck s.session s.latched with
  | .raises x => .next (s.raise x)
  | .unregistered => .fault .unregisteredSession
  | .runs g => convertFrame g s

end Sys2Proof.Machine
end

