-- ==== Sys2Proof/Machine/HostSide.lean ====
section
/-! DEFINITION. The host's side: the register window (10_state.md R21 to R35, R40), the host's accesses to the bound
windows (60_exceptions.md R213, 70_reset_and_hazards.md R241), reset (R230 to R232), and one host move. -/

namespace Sys2Proof.Machine

/-! ### The register window -/

/-- The offset of each register in the window (10_state.md R21). -/
def Reg.offset : Reg → Nat
  | .cmd => 0x00
  | .status => 0x04
  | .result0 => 0x08
  | .arg i => 0x10 + 4 * i.val
  | .sessValid => 0x40
  | .sessFormat => 0x44
  | .sessKernel => 0x48
  | .sessWidth => 0x4C
  | .sessHeight => 0x50
  | .sessSrcStride => 0x54
  | .sessDstStride => 0x58
  | .sessInterlace => 0x5C
  | .sessParNum => 0x60
  | .sessParDen => 0x64

/-- Every register of the window (10_state.md R21). -/
def allRegs : List Reg :=
  [.cmd, .status, .result0, .arg 0, .arg 1, .arg 2, .arg 3, .arg 4, .arg 5, .arg 6, .sessValid, .sessFormat,
   .sessKernel, .sessWidth, .sessHeight, .sessSrcStride, .sessDstStride, .sessInterlace, .sessParNum, .sessParDen]

/-- The register at an offset of the window; none at a reserved one (10_state.md R21, R35). -/
def regAt (off : Nat) : Option Reg := allRegs.find? (fun r => Reg.offset r == off)

/-- What a register reads as (10_state.md R21 to R35): CMD reads 0, reserved bits read 0. The state is that before
the pending command, whose writes take effect at its completion (R31, R40). -/
def readReg (s : State) : Reg → Word
  | .cmd => 0#32
  | .status => statusWord s.busy s.code
  | .result0 => s.result0
  | .arg i => s.args.get i
  | .sessValid => bitWord s.session.valid
  | .sessFormat => s.session.format
  | .sessKernel => 0#30 ++ s.session.kernel.tag
  | .sessWidth => s.session.width
  | .sessHeight => s.session.height
  | .sessSrcStride => s.session.srcStride
  | .sessDstStride => s.session.dstStride
  | .sessInterlace => 0#31 ++ s.session.interlace
  | .sessParNum => s.session.parNum
  | .sessParDen => s.session.parDen

/-- A host read of an offset of the window; a reserved one reads 0 (10_state.md R35). -/
def readOffset (s : State) (off : Nat) : Word :=
  match regAt off with
  | none => 0#32
  | some r => readReg s r

/-- A host write of a register: CMD issues a command and ARG registers are stored while BUSY = 0; every other write
is ignored (10_state.md R22, R34, R35, R40; 20_memory.md R61). -/
def writeReg (s : State) (r : Reg) (v : Word) : State :=
  match r with
  | .cmd => if s.busy then s else s.issue v
  | .arg i => if s.busy then s else { s with args := s.args.set i v }
  | .status => s
  | .result0 => s
  | .sessValid => s
  | .sessFormat => s
  | .sessKernel => s
  | .sessWidth => s
  | .sessHeight => s
  | .sessSrcStride => s
  | .sessDstStride => s
  | .sessInterlace => s
  | .sessParNum => s
  | .sessParDen => s

/-- A host write of an offset of the window; a reserved one is ignored (10_state.md R35). -/
def writeOffset (s : State) (off : Nat) (v : Word) : State :=
  match regAt off with
  | none => s
  | some r => writeReg s r v

/-- What a host access of `size` bytes at a bus address is to this block. -/
inductive Access where
  /-- An aligned 32-bit access at an offset of the window (20_memory.md R54). -/
  | register (off : Nat)
  /-- It touches the window in another width or alignment: refused (R54). -/
  | malformed
  /-- It does not touch the window (R65, log 6). -/
  | elsewhere
deriving DecidableEq, Repr

/-- Sort a host access: the window is the 256 bytes at REG_BASE (20_memory.md R65), and only "a byte offset that is a
multiple of 4, and 4 bytes wide" is inside the interface (R54). -/
def classify (cfg : Config) (addr size : Nat) : Access :=
  if addr + size ≤ cfg.regBase ∨ cfg.regBase + 256 ≤ addr then .elsewhere
  else if cfg.regBase ≤ addr ∧ (addr - cfg.regBase) % 4 = 0 ∧ size = 4 then .register (addr - cfg.regBase)
  else .malformed

/-! ### A CONVERT in progress -/

/-- A CONVERT has been issued and has not completed (70_reset_and_hazards.md R241). -/
def State.convertPending (s : State) : Bool :=
  s.busy && decide (decode s.cmd = .command .convert)

/-- A running CONVERT has borrowed the byte at an offset of its source window, which is SRC_LEN bytes
(60_exceptions.md R213): to write it is a breach of duty (70_reset_and_hazards.md R241). -/
def State.srcBorrowed (s : State) (off : Nat) : Bool := s.convertPending && decide (off < s.geom.srcLen)

/-- A running CONVERT has borrowed the byte at an offset of its destination window, which is DST_LEN bytes
(60_exceptions.md R213): to read or write it is a breach of duty (70_reset_and_hazards.md R241). -/
def State.dstBorrowed (s : State) (off : Nat) : Bool := s.convertPending && decide (off < s.geom.dstLen)

/-- The host has broken its duty during a CONVERT: every active destination byte is any value from now on, whatever the
CONVERT completes with (93_implementation_defined.md I4, log 9). -/
def State.disturb (s : State) : State := { s.scramble s.geom with disturbed := true }

/-! ### One host move -/

/-- A host store. -/
def hostStore (addr size : Nat) (v : Word) (s : State) : Host.Outcome State Fault Refusal :=
  match classify s.cfg addr size with
  | .register off => .next (writeOffset s off v)
  | .malformed => .refused .registerAccess
  | .elsewhere => .refused .outsideWindow

/-- A host load; "reading any register has no side effect" on the block (20_memory.md R61). -/
def hostLoad (addr size : Nat) (s : State) : Host.Outcome State Fault Refusal :=
  match classify s.cfg addr size with
  | .register off => .next { s with readData := readOffset s off }
  | .malformed => .refused .registerAccess
  | .elsewhere => .refused .outsideWindow

/-- WAIT: load STATUS, and again until BUSY = 0 (30_encoding.md R77): while BUSY = 1 the move stays the host's
next. -/
def hostWait (s : State) : Host.Outcome State Fault Refusal :=
  if s.busy then .next { s with readData := readReg s .status, input := .wait :: s.input }
  else .next { s with readData := readReg s .status }

/-- The host binds a source window. While a CONVERT runs, the spec gives this no meaning (log 10). -/
def hostBindSrc (vs : List Byte) (s : State) : Host.Outcome State Fault Refusal :=
  if s.convertPending then .refused .rebindDuringConvert else .next { s with src := Window.ofBytes vs }

/-- The host binds a destination window. While a CONVERT runs, the spec gives this no meaning (log 10). -/
def hostBindDst (vs : List Byte) (s : State) : Host.Outcome State Fault Refusal :=
  if s.convertPending then .refused .rebindDuringConvert else .next { s with dst := Window.ofBytes vs }

/-- The host writes a byte of its source window; one that a CONVERT has borrowed, in breach of its duty
(70_reset_and_hazards.md R241, 93_implementation_defined.md I4). -/
def hostSrcStore (off : Nat) (v : Byte) (s : State) : Host.Outcome State Fault Refusal :=
  if off < s.src.len then
    if s.srcBorrowed off then .next { s.disturb with src := s.src.write off v }
    else .next { s with src := s.src.write off v }
  else .refused .hostMemory

/-- The host reads a byte of its source window, which is no breach of R241. -/
def hostSrcLoad (off : Nat) (s : State) : Host.Outcome State Fault Refusal :=
  if off < s.src.len then .next { s with readData := (s.src.read off).setWidth 32 } else .refused .hostMemory

/-- The destination window with one byte set to a free value. -/
def State.freeDstByte (s : State) (off : Nat) : State :=
  { s with dst := s.dst.write off (Config.freeByte s.draws), draws := s.draws + 1 }

/-- The host writes a byte of its destination window. One that a CONVERT has borrowed it writes in breach of its duty,
and that byte is any value (70_reset_and_hazards.md R241, 93_implementation_defined.md I4). -/
def hostDstStore (off : Nat) (v : Byte) (s : State) : Host.Outcome State Fault Refusal :=
  if off < s.dst.len then
    if s.dstBorrowed off then .next (s.disturb.freeDstByte off)
    else .next { s with dst := s.dst.write off v }
  else .refused .hostMemory

/-- The host reads a byte of its destination window. One that a CONVERT has borrowed it reads in breach of its duty:
that byte is any value, and so is what it reads (70_reset_and_hazards.md R241, 93_implementation_defined.md I4). -/
def hostDstLoad (off : Nat) (s : State) : Host.Outcome State Fault Refusal :=
  if off < s.dst.len then
    if s.dstBorrowed off then
      .next { s.disturb.freeDstByte off with
        readData := (Config.freeByte (s.disturb.freeDstByte off).draws).setWidth 32
        draws := (s.disturb.freeDstByte off).draws + 1 }
    else .next { s with readData := (s.dst.read off).setWidth 32 }
  else .refused .hostMemory

/-- RST: every register takes its reset value. A pending command never completes; if it was a CONVERT, the destination
window's active bytes are any value (70_reset_and_hazards.md R231, R232). -/
def hostRst (s : State) : Host.Outcome State Fault Refusal :=
  if s.convertPending then .next (s.scramble s.geom).hardReset else .next s.hardReset

/-- One host move. -/
def hostMove (e : HostEvent) (s : State) : Host.Outcome State Fault Refusal :=
  match e with
  | .store addr size v => hostStore addr size v s
  | .load addr size => hostLoad addr size s
  | .wait => hostWait s
  | .bindSrc vs => hostBindSrc vs s
  | .bindDst vs => hostBindDst vs s
  | .srcStore off v => hostSrcStore off v s
  | .srcLoad off => hostSrcLoad off s
  | .dstStore off v => hostDstStore off v s
  | .dstLoad off => hostDstLoad off s
  | .rst => hostRst s

/-- The host's next move, taken off its list. A host with none leaves the block as it is: "it does nothing unless a
command has been issued" (10_state.md R20). -/
def hostStep (s : State) : Host.Outcome State Fault Refusal :=
  match s.input with
  | [] => .next s
  | e :: es => hostMove e { s with input := es }

end Sys2Proof.Machine
end

