-- ==== Sys2Proof/Machine/Program.lean ====
section
/-! DEFINITION. The assembly language of host programs, line by line, and its expansion into host moves
(30_encoding.md R77, R78). -/

namespace Sys2Proof.Machine

/-- The identifier a format name stands for (30_encoding.md R77). -/
def Format.id : Format → Word
  | .rgb32 => fmtRgb32
  | .rgb24 => fmtRgb24
  | .yuy2 => fmtYuy2
  | .nv12 => fmtNv12

/-- The word an operand stands for; a negative integer by its two's complement (30_encoding.md R77). DESIGN CHOICE, log 14:
an integer that needs more than 32 bits keeps its low 32 (00_scope.md R9). -/
def AsmOperand.word : AsmOperand → Word
  | .num v => low32 v
  | .fmt f => Format.id f

/-- `WR <reg>, <value>`: a 32-bit store (30_encoding.md R77). -/
def wrMove (cfg : Config) (r : Reg) (v : Word) : HostEvent := .store (cfg.regBase + Reg.offset r) 4 v

/-- `RD <reg>`: a 32-bit load (30_encoding.md R77). -/
def rdMove (cfg : Config) (r : Reg) : HostEvent := .load (cfg.regBase + Reg.offset r) 4

/-- The stores of a command's operands, ARG registers from number `k` on: one WR per operand the command reads, an
omitted one written as 0 (30_encoding.md R78). `n` is how many are left to write. -/
def argMoves (cfg : Config) (k n : Nat) (ops : List AsmOperand) : List HostEvent :=
  match n with
  | 0 => []
  | n + 1 =>
    if h : k < 7 then
      wrMove cfg (.arg ⟨k, h⟩) (match ops with | [] => 0#32 | o :: _ => AsmOperand.word o)
        :: argMoves cfg (k + 1) n ops.tail
    else []

/-- The expansion of one line (30_encoding.md R78). -/
def AsmLine.expand (cfg : Config) : AsmLine → List HostEvent
  | .command i ops => argMoves cfg 0 i.arity ops ++ [wrMove cfg .cmd (encode i), .wait]
  | .wr r v => [wrMove cfg r (AsmOperand.word v)]
  | .rd r => [rdMove cfg r]
  | .wait => [.wait]

/-- The host moves of a program (30_encoding.md R77, R78). -/
def assemble (cfg : Config) (prog : List AsmLine) : List HostEvent := prog.flatMap (AsmLine.expand cfg)

end Sys2Proof.Machine
end

