-- ==== Sys2Proof/Machine/Dispatch.lean ====
section
/-! DEFINITION. Which meaning each command has: one arm per constructor of Instr. -/

namespace Sys2Proof.Machine

/-- What a command does when it completes, on the state before its completion (10_state.md R31). -/
def exec (i : Instr) (s : State) : Host.Outcome State Fault Refusal :=
  match i with
  | .enum => Sys2Proof.Machine.execEnum s
  | .issup => Sys2Proof.Machine.execIssup s
  | .lookup => Sys2Proof.Machine.execLookup s
  | .resolve => Sys2Proof.Machine.execResolve s
  | .setvt => Sys2Proof.Machine.execSetvt s
  | .convert => Sys2Proof.Machine.execConvert s
  | .senum => Sys2Proof.Machine.execSenum s
  | .sissup => Sys2Proof.Machine.execSissup s

end Sys2Proof.Machine
end

