-- ==== Sys2Proof/Machine/Run.lean ====
section
/-! DEFINITION. The completion of the pending command (10_state.md R31), and which agent moves next. -/

namespace Sys2Proof.Machine

/-- The pending command completes. "Decode comes before everything" (60_exceptions.md R205): an illegal word completes
with ILLEGAL_COMMAND and changes nothing else (30_encoding.md R75). -/
def completePending (s : State) : Host.Outcome State Fault Refusal :=
  match decode s.cmd with
  | .command i => exec i s
  | .illegal _ => .next (s.raise .illegalCommand)

/-- One step. While BUSY = 1 the host makes `delay` more moves, and then the command completes
(70_reset_and_hazards.md R245, log 2); while BUSY = 0 only the host moves (10_state.md R20). -/
def advance (s : State) : Host.Outcome State Fault Refusal :=
  if s.busy then
    match s.delay with
    | 0 => completePending s
    | n + 1 => hostStep { s with delay := n }
  else hostStep s

/-- The command of a table word issued and about to complete: the next step runs exactly it (log 1). -/
def placeTableWord (s : State) (nbits w : Nat) : State := s.place (BitVec.ofNat 32 (w % 2 ^ nbits))

end Sys2Proof.Machine
end

