-- ==== Sys2Proof/Machine/Step.lean ====
section
/-! DEFINITION. One step of the machine, and where the next command is placed. -/

namespace Sys2Proof.Machine

/-- One step of the block and its host (10_state.md R20). -/
def step (s : State) : Host.Outcome State Fault Refusal := advance s

/-- `s` with the command of a table word just issued and no host move left before its completion, so that the next
step runs exactly it (log 1). The block fetches nothing from memory (20_memory.md R64): a command is "placed" by the
CMD write that issues it. -/
def State.withFetchWord (s : State) (nbits w : Nat) : State := placeTableWord s nbits w

end Sys2Proof.Machine
end

