-- ==== Sys2Proof/Safety.lean ====
section
/-! DEFINITION. What a good state is: the invariant of 10_state.md R36, R38 and 43_session.md R180, with the canonical
form of memory; and what a step may do to the session. -/

namespace Sys2Proof.Machine

/-- What the session registers satisfy (10_state.md R27 to R32, R36): with SESS_VALID = 1 the format is registered, the
kernel is its kernel, the geometry is valid, the destination stride is 4w and both aspect-ratio terms are non-zero;
with SESS_VALID = 0 "the other session registers hold their reset values". -/
def Session.ok (cfg : Config) (ss : Session) : Bool :=
  if ss.valid then
    validGeometry cfg ss.format (zext32 ss.width) (zext32 ss.height) (sext32 ss.srcStride)
      && decide ((entryOf ss.format).map RegistryEntry.kernel = some ss.kernel)
      && decide (sext32 ss.dstStride = 4 * zext32 ss.width)
      && (ss.parNum != 0#32) && (ss.parDen != 0#32)
  else decide (ss = Session.reset)

/-- The invariant every step keeps. -/
structure State.Inv (s : State) : Prop where
  /-- The parameters are within the spec's limits (00_scope.md R7, 20_memory.md R65). -/
  config  : s.cfg.wellFormed = true
  /-- The session registers are those of R27 to R32, R36. -/
  session : Session.ok s.cfg s.session = true
  /-- The source window is in its canonical form. -/
  src     : s.src.wf = true
  /-- The destination window is in its canonical form. -/
  dst     : s.dst.wf = true

/-- The outcome is not a fault: the block "has no fault state of its own" (60_exceptions.md R214). -/
def NoFault (o : Host.Outcome State Fault Refusal) : Prop := ∀ f, o ≠ .fault f

/-- A CONVERT executes normally: the session is valid, both strides are wide enough (43_session.md R186), both windows
long enough (R187), no declared length exceeds the memory the host bound (93_implementation_defined.md I2), and the
host has kept its duty (70_reset_and_hazards.md R241). -/
structure ConvertReady (s : State) : Prop where
  valid       : s.session.valid = true
  srcStride   : s.geom.srcActive ≤ s.geom.s.natAbs
  dstStride   : 4 * s.geom.w ≤ s.geom.d.natAbs
  srcLen      : s.geom.srcBytes ≤ s.geom.srcLen
  dstLen      : s.geom.dstBytes ≤ s.geom.dstLen
  srcBound    : s.geom.srcLen ≤ s.src.len
  dstBound    : s.geom.dstLen ≤ s.dst.len
  undisturbed : s.disturbed = false

/-- The offset is an active destination byte: byte b < 4w of some image row (20_memory.md R56, R59). -/
def DstActive (g : Geom) (a : Nat) : Prop := ∃ i b, i < g.h ∧ b < 4 * g.w ∧ a = g.dstRow i + b

/-- The offset is an active byte of the destination window, which is DST_LEN bytes (60_exceptions.md R213): one of those
that a reset or a breach of duty during a CONVERT leaves as any value (70_reset_and_hazards.md R232,
93_implementation_defined.md I4, I6). -/
def DstWindowActive (s : State) (a : Nat) : Prop := DstActive s.geom a ∧ a < s.geom.dstLen

/-- The offset is an active source byte: byte b of some image row, or of a chroma row for 4:2:0 (20_memory.md R56,
R59). -/
def SrcActive (g : Geom) (a : Nat) : Prop :=
  (∃ i b, i < g.h ∧ b < g.srcActive ∧ a = g.srcRow i + b) ∨
    (g.kernel = .yuv420 ∧ ∃ j b, j < g.h / 2 ∧ b < g.w ∧ a = g.chromaRow j + b)

/-- The four formats as the spec's tables give them, written out once more for the statements: identifier, bytes per
pixel, kernel (10_state.md R33, 41_stride_resolver.md R120). -/
def pfcFormats : List (Word × Nat × Kernel) :=
  [(0x00000016#32, 4, .passthrough), (0x00000014#32, 3, .rgb24), (0x32595559#32, 2, .yuv422),
   (0x3231564E#32, 1, .yuv420)]

end Sys2Proof.Machine
end

