-- ==== Sys2Proof/Certificates/Slice0/Obligations.lean ====
section
/-! DEFINITION. The statements for the provers, each from the rules of spec/ that its entry in OBLIGATIONS.json cites. -/

open Sys2Proof Sys2Proof.Machine

/-- The words 0x00000001, 0x00000005, 0x00000006 and 0x00000008 decode to ENUM, SETVT, CONVERT and SISSUP, and the illegal
words of vector V-E (0, 9, 0xFF, 0x101, 0x80000001) are rejected by name. (30_encoding.md R70 and R72;
95_test_vectors.md V-E) -/
def Obligations.TableWordsDecodeAndNeighboursAreIllegal : Prop :=
  decode 0x00000001#32 = .command .enum ∧ decode 0x00000005#32 = .command .setvt ∧
    decode 0x00000006#32 = .command .convert ∧ decode 0x00000008#32 = .command .sissup ∧
    decode 0x00000000#32 = .illegal (.unknownOpcode 0x00#8) ∧ decode 0x00000009#32 = .illegal (.unknownOpcode 0x09#8) ∧
    decode 0x000000FF#32 = .illegal (.unknownOpcode 0xFF#8) ∧ decode 0x00000101#32 = .illegal .reservedBits ∧
    decode 0x80000001#32 = .illegal .reservedBits

/-- For every well-formed command i, decode (encode i) is i; and for every 32-bit word w, if w decodes to i then w is the
encoding of i, so no bit of a command word is dropped. (30_encoding.md R70, R72 and R79) -/
def Obligations.DecodeAndEncodeAreInverse : Prop :=
  (∀ i : Instr, i.wellFormed = true → decode (encode i) = .command i) ∧
    ∀ (w : Word) (i : Instr), decode w = .command i → w = encode i

/-- For every 32-bit word w: 0x00000001 to 0x00000008 decode to ENUM, ISSUP, LOOKUP, RESOLVE, SETVT, CONVERT, SENUM,
SISSUP in that order, and every other word decodes to an illegal word. (R79) -/
def Obligations.DecoderIsTheTableOnEveryWord : Prop :=
  ∀ w : Word,
    if w = 0x00000001#32 then decode w = .command .enum
    else if w = 0x00000002#32 then decode w = .command .issup
    else if w = 0x00000003#32 then decode w = .command .lookup
    else if w = 0x00000004#32 then decode w = .command .resolve
    else if w = 0x00000005#32 then decode w = .command .setvt
    else if w = 0x00000006#32 then decode w = .command .convert
    else if w = 0x00000007#32 then decode w = .command .senum
    else if w = 0x00000008#32 then decode w = .command .sissup
    else ∃ why, decode w = .illegal why

/-- When BUSY = 1, no host move is left before the completion (delay = 0, the model's own field, log 2), and the command
word decodes to a command i, the step is exec of i at that state, with nothing around it. (10_state.md R31, R34 and
R37; 60_exceptions.md R205) -/
def Obligations.StepRunsTheDecodedCommand : Prop :=
  ∀ (s : State) (i : Instr), s.busy = true → s.delay = 0 → decode s.cmd = .command i → i.wellFormed = true →
    step s = exec i s

/-- For every state and command, the step from the state with the command's word placed (withFetchWord, log 1) is exec of
that command at that state. (30_encoding.md R70; 10_state.md R34) -/
def Obligations.PlacedCommandIsRunByTheNextStep : Prop :=
  ∀ (s : State) (i : Instr),
    step (s.withFetchWord 32 (encode i).toNat) = exec i (s.withFetchWord 32 (encode i).toNat)

/-- When the pending word is outside 0x00000001 to 0x00000008, or its RSVD bits [31:8] are not 0, the completing step sets
CODE = ILLEGAL_COMMAND, RESULT0 = 0 and BUSY = 0 and leaves every other field as it was. (R71; R75) -/
def Obligations.IllegalWordOnlyRaisesIllegalCommand : Prop :=
  ∀ s : State, s.busy = true → s.delay = 0 →
    (s.cmd.toNat = 0 ∨ 8 < s.cmd.toNat →
      step s = .next { s with code := .illegalCommand, result0 := 0#32, busy := false }) ∧
    (s.cmd.extractLsb' 8 24 ≠ 0#24 →
      step s = .next { s with code := .illegalCommand, result0 := 0#32, busy := false })

/-- With BUSY = 0 and no host move to come (input = [], the model's own field, log 1), a step leaves the state as it is.
(10_state.md R20) -/
def Obligations.IdleBlockDoesNothing : Prop :=
  ∀ s : State, s.busy = false → s.input = [] → step s = .next s

/-- At reset every offset of the register window reads 0, so does every named register, the latched copies are 0, and the
registry ROM holds its four entries. (R38) -/
def Obligations.ResetReadsZeroEverywhere : Prop :=
  (∀ off, off < 256 → readOffset State.reset off = 0#32) ∧ (∀ r : Reg, readReg State.reset r = 0#32) ∧
    State.reset.latched = ⟨0#32, 0#32, 0#32, 0#32, 0#32, 0#32, 0#32⟩ ∧
    rom.map (fun e => (e.id, e.bpp, e.kernel)) = pfcFormats

/-- State.reset meets State.Inv: parameters within the spec's limits (the default MAX_DIM 65535 of R7 and the model's
choice REG_BASE = 0, log 5), the session registers at their reset values, both windows in canonical form. (10_state.md
R36 and R38; 00_scope.md R7) -/
def Obligations.ResetMeetsTheInvariant : Prop :=
  State.reset.Inv

/-- In every state RST gives a next state in which every register reads 0, the latched copies and the pending word are 0,
BUSY = 0, MAX_DIM, REG_BASE and the source window are as before, the destination window has its length, and every
destination byte reads as before except the active bytes of the destination window of a pending CONVERT, which the
spec leaves as any value, whatever its checks would have said. Which bytes those are for a CONVERT whose checks would
have failed is the model's reading (log 11, DEDUCED). (70_reset_and_hazards.md R230, R231 and R232; 20_memory.md R59;
60_exceptions.md R213) -/
def Obligations.RstClearsEveryRegister : Prop :=
  ∀ s : State, ∃ t, hostMove .rst s = .next t ∧ (∀ r : Reg, readReg t r = 0#32) ∧ t.latched = Args.reset ∧
    t.cmd = 0#32 ∧ t.busy = false ∧ t.cfg = s.cfg ∧ t.src = s.src ∧ t.dst.len = s.dst.len ∧
    ∀ a, ¬ (s.busy = true ∧ decode s.cmd = .command .convert ∧ DstWindowActive s a) → t.dst.read a = s.dst.read a

/-- From every state that meets State.Inv, a step that gives a next state gives one that meets State.Inv: parameters
within limits, session registers at reset values or a valid geometry with its kernel, destination stride 4w and non-
zero aspect ratio, and both windows in canonical form. (10_state.md R27, R28, R29, R32 and R36; 43_session.md R180 and
R182; 20_memory.md R59) -/
def Obligations.EveryStepKeepsTheInvariant : Prop :=
  ∀ s t : State, s.Inv → step s = .next t → t.Inv

/-- From every state that meets State.Inv no step faults: no port access leaves its window and no CONVERT meets an
unregistered format. (60_exceptions.md R214; 20_memory.md R51, R52 and R59; 43_session.md R187) -/
def Obligations.NoStepFaults : Prop :=
  ∀ s : State, s.Inv → NoFault (step s)

/-- If a step changes any session register, then it completed a SETVT with OK, or it took an RST as its host move (no
completion, the move taken off the list), after which they hold their reset values; and no CONVERT changes any,
whatever its status. (R26; R189) -/
def Obligations.OnlySetvtAndResetWriteTheSession : Prop :=
  (∀ s t : State, step s = .next t → t.session ≠ s.session →
      (s.busy = true ∧ s.delay = 0 ∧ decode s.cmd = .command .setvt ∧ t.code = .ok) ∨
        ((s.busy = false ∨ 0 < s.delay) ∧
          ∃ rest, s.input = .rst :: rest ∧ t.input = rest ∧ t.session = Session.reset)) ∧
    ∀ s t : State, exec .convert s = .next t → t.session = s.session

/-- If SESS_VALID is 1 before a step and 0 after it, the step took an RST as its host move (no completion, the move taken
off the list); and no command clears it. (10_state.md R27; 43_session.md R191) -/
def Obligations.OnlyResetClearsSessValid : Prop :=
  (∀ s t : State, step s = .next t → s.session.valid = true → t.session.valid = false →
      (s.busy = false ∨ 0 < s.delay) ∧ ∃ rest, s.input = .rst :: rest ∧ t.input = rest) ∧
    ∀ (i : Instr) (s t : State), exec i s = .next t → s.session.valid = true → t.session.valid = true

/-- When exec of any command gives a next state: the parameters, operand registers, latched copies, source window, the
destination window's length and the model's own host fields are unchanged and BUSY = 0; only SETVT may change the
session registers; only CONVERT may change the destination window's contents (and the count of free values), and of
those only the active bytes of its destination rows. That the command word and the latched copies keep their values
after the completion is the model's own choice (log 17, DESIGN CHOICE), which no rule of the spec states; the host
fields are the model's own (logs 1, 2, 9, 13). (10_state.md R22, R26 and R31; 20_memory.md R50, R51, R52 and R59) -/
def Obligations.CommandFrame : Prop :=
  ∀ (i : Instr) (s t : State), exec i s = .next t →
    t.cfg = s.cfg ∧ t.cmd = s.cmd ∧ t.args = s.args ∧ t.latched = s.latched ∧ t.src = s.src ∧
    t.dst.len = s.dst.len ∧ t.delay = s.delay ∧ t.disturbed = s.disturbed ∧ t.readData = s.readData ∧
    t.input = s.input ∧ t.busy = false ∧ (i ≠ .setvt → t.session = s.session) ∧
    (i ≠ .convert → t.draws = s.draws ∧ ∀ a, t.dst.read a = s.dst.read a) ∧
    (i = .convert → ∀ a, ¬ DstActive s.geom a → t.dst.read a = s.dst.read a)

/-- When the pending command (or illegal word) completes with a code other than OK, the state after equals the state
before except CODE, RESULT0 = 0 and BUSY = 0: no session register and no destination byte changes. (R203) -/
def Obligations.FailedCommandWritesOnlyStatusAndResult : Prop :=
  ∀ s t : State, completePending s = .next t → t.code ≠ .ok →
    t = { s with code := t.code, result0 := 0#32, busy := false }

/-- ENUM and SENUM complete with OK or NO_MORE_FORMATS, ISSUP and SISSUP with OK, LOOKUP with OK or UNSUPPORTED_FORMAT,
RESOLVE with OK or GEOMETRY_ERROR, SETVT with OK, UNSUPPORTED_FORMAT or GEOMETRY_ERROR, CONVERT with OK, NOT_READY,
GEOMETRY_ERROR or BUFFER_ERROR; none with ILLEGAL_COMMAND. (60_exceptions.md R200 and R204) -/
def Obligations.StatusCodesEachCommandCanProduce : Prop :=
  ∀ (i : Instr) (s t : State), exec i s = .next t →
    match i with
    | .enum => t.code = .ok ∨ t.code = .noMoreFormats
    | .senum => t.code = .ok ∨ t.code = .noMoreFormats
    | .issup => t.code = .ok
    | .sissup => t.code = .ok
    | .lookup => t.code = .ok ∨ t.code = .unsupportedFormat
    | .resolve => t.code = .ok ∨ t.code = .geometryError
    | .setvt => t.code = .ok ∨ t.code = .unsupportedFormat ∨ t.code = .geometryError
    | .convert => t.code = .ok ∨ t.code = .notReady ∨ t.code = .geometryError ∨ t.code = .bufferError

/-- For every command, state, code and word, replacing CODE and RESULT0 before the command changes nothing of its outcome.
(R39) -/
def Obligations.NoCommandReadsStatusOrResult : Prop :=
  ∀ (i : Instr) (s : State) (c : Status) (r : Word), exec i { s with code := c, result0 := r } = exec i s

/-- If exec of a command gives t from s, then from s with any other values in ARG0 to ARG6 it gives t with those values:
the block neither reads nor writes the operand registers. (10_state.md R22) -/
def Obligations.CommandReadsOnlyLatchedOperands : Prop :=
  ∀ (i : Instr) (s t : State) (a : Args), exec i s = .next t →
    exec i { s with args := a } = .next { t with args := a }

/-- For ENUM and SENUM in every state: index 0, 1, 2, 3 completes with OK and RESULT0 = 0x16, 0x14, 0x32595559,
0x3231564E; any index >= 4 (unsigned) completes with NO_MORE_FORMATS and RESULT0 = 0; nothing else changes. (R103;
R106) -/
def Obligations.EnumerationReturnsTheRegistryInOrder : Prop :=
  ∀ i : Instr, i = .enum ∨ i = .senum → ∀ s : State,
    (∀ (k : Nat) (id : Word), (k, id) ∈ [(0, 0x00000016#32), (1, 0x00000014#32), (2, 0x32595559#32), (3, 0x3231564E#32)] →
      s.latched.arg0.toNat = k → exec i s = .next { s with code := .ok, result0 := id, busy := false }) ∧
    (4 ≤ s.latched.arg0.toNat →
      exec i s = .next { s with code := .noMoreFormats, result0 := 0#32, busy := false })

/-- For ISSUP and SISSUP in every state: CODE = OK, RESULT0 = 1 when the whole 32-bit operand equals one of the four
identifiers and 0 otherwise; nothing else changes. (R104; R107) -/
def Obligations.MembershipTestAnswersOneOrZero : Prop :=
  ∀ i : Instr, i = .issup ∨ i = .sissup → ∀ s : State,
    (s.latched.arg0 ∈ pfcFormats.map (·.1) →
      exec i s = .next { s with code := .ok, result0 := 1#32, busy := false }) ∧
    (s.latched.arg0 ∉ pfcFormats.map (·.1) →
      exec i s = .next { s with code := .ok, result0 := 0#32, busy := false })

/-- LOOKUP completes with OK and RESULT0 = 0, 1, 2, 3 for RGB32, RGB24, YUY2, NV12, and with UNSUPPORTED_FORMAT and
RESULT0 = 0 for any other identifier; nothing else changes, so no kernel is selected. (R105) -/
def Obligations.LookupReturnsTheKernelTag : Prop :=
  ∀ s : State,
    (∀ id tag : Word, (id, tag) ∈ [(0x00000016#32, 0#32), (0x00000014#32, 1#32), (0x32595559#32, 2#32), (0x3231564E#32, 3#32)] →
      s.latched.arg0 = id → exec .lookup s = .next { s with code := .ok, result0 := tag, busy := false }) ∧
    (s.latched.arg0 ∉ pfcFormats.map (·.1) →
      exec .lookup s = .next { s with code := .unsupportedFormat, result0 := 0#32, busy := false })

/-- If ENUM completes with OK, then ISSUP on the identifier it returned gives 1 and LOOKUP on it completes with OK and
gives the index that was asked (Kernel(id) = Index(id)). (40_registry.md R100, R102, R103, R104 and R105) -/
def Obligations.EnumeratedFormatsAreSupportedAndIndexed : Prop :=
  ∀ s t : State, exec .enum s = .next t → t.code = .ok →
    (∃ u, exec .issup { t with latched := { t.latched with arg0 := t.result0 } } = .next u ∧ u.code = .ok ∧
      u.result0 = 1#32) ∧
    ∃ u, exec .lookup { t with latched := { t.latched with arg0 := t.result0 } } = .next u ∧ u.code = .ok ∧
      u.result0 = s.latched.arg0

/-- For each format with Bpp b: a width in 1..MAX_DIM, even for YUY2 and NV12, completes with OK and RESULT0 = the
explicit stride as given, or b x width when it is 0; width 0, width > MAX_DIM, an odd width for YUY2 or NV12, or an
unregistered identifier completes with GEOMETRY_ERROR and RESULT0 = 0, whatever the explicit stride; nothing else
changes. (R122) -/
def Obligations.ResolveComputesOrRejectsTheStride : Prop :=
  ∀ s : State,
    (∀ (id : Word) (b : Nat) (k : Kernel), (id, b, k) ∈ pfcFormats → s.latched.arg0 = id →
      (1 ≤ s.latched.arg1.toNat → s.latched.arg1.toNat ≤ s.cfg.maxDim → (b ≤ 2 → s.latched.arg1.toNat % 2 = 0) →
        exec .resolve s = .next { s with
          code := .ok
          result0 := if s.latched.arg2 = 0#32 then BitVec.ofNat 32 (b * s.latched.arg1.toNat) else s.latched.arg2
          busy := false }) ∧
      (s.latched.arg1.toNat = 0 ∨ s.cfg.maxDim < s.latched.arg1.toNat ∨ (b ≤ 2 ∧ s.latched.arg1.toNat % 2 = 1) →
        exec .resolve s = .next { s with code := .geometryError, result0 := 0#32, busy := false })) ∧
    (s.latched.arg0 ∉ pfcFormats.map (·.1) →
      exec .resolve s = .next { s with code := .geometryError, result0 := 0#32, busy := false })

/-- Two states with the same MAX_DIM and the same ARG[0], ARG[1], ARG[2] give RESOLVE the same code and result, whatever
their sessions, windows and other registers. (41_stride_resolver.md R123) -/
def Obligations.ResolveDependsOnlyOnItsOperands : Prop :=
  ∀ s s' : State, s.cfg.maxDim = s'.cfg.maxDim → s.latched.arg0 = s'.latched.arg0 →
    s.latched.arg1 = s'.latched.arg1 → s.latched.arg2 = s'.latched.arg2 →
    ∃ t t', exec .resolve s = .next t ∧ exec .resolve s' = .next t' ∧ t.code = t'.code ∧ t.result0 = t'.result0

/-- For each format with Bpp b and its kernel, with r the stride hint or b x width when it is 0: if width and height are
in 1..MAX_DIM, width even for YUY2 and NV12, height even for NV12, |r| >= b x width and the interlace hint <= 2, SETVT
stores every session register as the rule says and completes with OK and RESULT0 = r. If one of these fails it raises
GEOMETRY_ERROR, and on an unregistered identifier UNSUPPORTED_FORMAT (checked first), changing only CODE, RESULT0 = 0
and BUSY. (R181; R183; R184) -/
def Obligations.SetvtStoresTheWholeSessionOrRaises : Prop :=
  ∀ s : State,
    (∀ (id : Word) (b : Nat) (k : Kernel) (r : Int), (id, b, k) ∈ pfcFormats → s.latched.arg0 = id →
      r = (if s.latched.arg3.toInt = 0 then ((b * s.latched.arg1.toNat : Nat) : Int) else s.latched.arg3.toInt) →
      (1 ≤ s.latched.arg1.toNat → s.latched.arg1.toNat ≤ s.cfg.maxDim → 1 ≤ s.latched.arg2.toNat →
        s.latched.arg2.toNat ≤ s.cfg.maxDim → (b ≤ 2 → s.latched.arg1.toNat % 2 = 0) →
        (b = 1 → s.latched.arg2.toNat % 2 = 0) → b * s.latched.arg1.toNat ≤ r.natAbs → s.latched.arg4.toNat ≤ 2 →
        exec .setvt s = .next { s with
          session :=
            { valid := true
              format := id
              kernel := k
              width := s.latched.arg1
              height := s.latched.arg2
              srcStride := BitVec.ofInt 32 r
              dstStride := BitVec.ofNat 32 (4 * s.latched.arg1.toNat)
              interlace := if s.latched.arg4.toNat = 2 then 1#1 else 0#1
              parNum := if s.latched.arg5 = 0#32 ∨ s.latched.arg6 = 0#32 then 1#32 else s.latched.arg5
              parDen := if s.latched.arg5 = 0#32 ∨ s.latched.arg6 = 0#32 then 1#32 else s.latched.arg6 }
          code := .ok
          result0 := BitVec.ofInt 32 r
          busy := false }) ∧
      (s.latched.arg1.toNat = 0 ∨ s.cfg.maxDim < s.latched.arg1.toNat ∨ s.latched.arg2.toNat = 0 ∨
          s.cfg.maxDim < s.latched.arg2.toNat ∨ (b ≤ 2 ∧ s.latched.arg1.toNat % 2 = 1) ∨
          (b = 1 ∧ s.latched.arg2.toNat % 2 = 1) ∨ r.natAbs < b * s.latched.arg1.toNat ∨ 2 < s.latched.arg4.toNat →
        exec .setvt s = .next { s with code := .geometryError, result0 := 0#32, busy := false })) ∧
    (s.latched.arg0 ∉ pfcFormats.map (·.1) →
      exec .setvt s = .next { s with code := .unsupportedFormat, result0 := 0#32, busy := false })

/-- After every step from a state that meets the invariant, if SESS_VALID = 1 then the format is one of the four with its
Bpp b and kernel, width and height are in 1..MAX_DIM, |SESS_SRC_STRIDE| >= width x b and is not 0, SESS_DST_STRIDE = 4
x width, width is even for YUY2 and NV12 and height is even for NV12. (R36) -/
def Obligations.ValidSessionHasAValidGeometry : Prop :=
  ∀ s t : State, s.Inv → step s = .next t → t.session.valid = true →
    ∃ b, (t.session.format, b, t.session.kernel) ∈ pfcFormats ∧
      1 ≤ t.session.width.toNat ∧ t.session.width.toNat ≤ t.cfg.maxDim ∧
      1 ≤ t.session.height.toNat ∧ t.session.height.toNat ≤ t.cfg.maxDim ∧
      t.session.srcStride.toInt ≠ 0 ∧ t.session.width.toNat * b ≤ t.session.srcStride.toInt.natAbs ∧
      t.session.dstStride.toInt = 4 * t.session.width.toNat ∧
      (b ≤ 2 → t.session.width.toNat % 2 = 0) ∧ (b = 1 → t.session.height.toNat % 2 = 0)

/-- If SETVT completes with OK, then RESOLVE with the same identifier and width and with SETVT's stride hint as its
explicit stride completes with OK and returns the stored SESS_SRC_STRIDE, which is also SETVT's RESULT0.
(43_session.md R181; 41_stride_resolver.md R121 and R123) -/
def Obligations.SetvtStrideIsResolveStride : Prop :=
  ∀ s t : State, exec .setvt s = .next t → t.code = .ok →
    t.result0 = t.session.srcStride ∧
    ∃ u, exec .resolve { s with latched := { s.latched with arg2 := s.latched.arg3 } } = .next u ∧ u.code = .ok ∧
      u.result0 = t.session.srcStride

/-- In every state with SESS_VALID = 0, CONVERT completes with NOT_READY and RESULT0 = 0, and nothing else changes, the
destination window included. (R190) -/
def Obligations.ConvertBeforeSetvtIsNotReady : Prop :=
  ∀ s : State, s.session.valid = false →
    exec .convert s = .next { s with code := .notReady, result0 := 0#32, busy := false }

/-- In a valid session of the invariant, with s the non-zero ARG[0] or else SESS_SRC_STRIDE and d the non-zero ARG[1] or
else SESS_DST_STRIDE: those are the strides the CONVERT works on; |s| < Bpp x w or |d| < 4w makes it raise
GEOMETRY_ERROR, changing only CODE, RESULT0 and BUSY; the stored strides always pass; and no CONVERT changes a session
register. (R186) -/
def Obligations.NarrowStrideRaisesGeometryError : Prop :=
  ∀ (s : State) (b : Nat) (sv dv : Int), s.Inv → s.session.valid = true →
    (s.session.format, b, s.session.kernel) ∈ pfcFormats →
    sv = (if s.latched.arg0 = 0#32 then s.session.srcStride.toInt else s.latched.arg0.toInt) →
    dv = (if s.latched.arg1 = 0#32 then s.session.dstStride.toInt else s.latched.arg1.toInt) →
    s.geom.s = sv ∧ s.geom.d = dv ∧
    (sv.natAbs < b * s.session.width.toNat ∨ dv.natAbs < 4 * s.session.width.toNat →
      exec .convert s = .next { s with code := .geometryError, result0 := 0#32, busy := false }) ∧
    (s.latched.arg0 = 0#32 → b * s.session.width.toNat ≤ sv.natAbs) ∧
    (s.latched.arg1 = 0#32 → 4 * s.session.width.toNat ≤ dv.natAbs) ∧
    ∀ t, exec .convert s = .next t → t.session = s.session

/-- In a valid session of the invariant whose strides in force are wide enough, if SRC_LEN < h x |s| (plus (h/2) x |s| for
NV12) or DST_LEN < h x |d|, CONVERT completes with BUFFER_ERROR and RESULT0 = 0, and nothing else changes, both
windows included. (R187) -/
def Obligations.ShortWindowRaisesBufferError : Prop :=
  ∀ s : State, s.Inv → s.session.valid = true → s.geom.srcActive ≤ s.geom.s.natAbs →
    4 * s.geom.w ≤ s.geom.d.natAbs →
    s.latched.arg2.toNat < s.session.height.toNat * s.geom.s.natAbs +
        (if s.session.kernel = .yuv420 then s.session.height.toNat / 2 * s.geom.s.natAbs else 0) ∨
      s.latched.arg3.toNat < s.session.height.toNat * s.geom.d.natAbs →
    exec .convert s = .next { s with code := .bufferError, result0 := 0#32, busy := false }

/-- When every check of CONVERT passes but SRC_LEN or DST_LEN exceeds the memory the host bound to that port, the model
refuses with windowNotBound (log 8). (93_implementation_defined.md I2) -/
def Obligations.UnboundWindowIsRefused : Prop :=
  ∀ (s : State) (g : Geom), convertCheck s.session s.latched = .runs g →
    s.src.len < g.srcLen ∨ s.dst.len < g.dstLen → exec .convert s = .refused .windowNotBound

/-- From a state of the invariant in which CONVERT executes normally (ConvertReady), it answers a next state that differs
only in CODE = OK, RESULT0 = 0, BUSY = 0 and the destination window's contents, in which every byte that is not an
active byte of a destination row reads as before. (43_session.md R185, R188 and R189; 20_memory.md R59;
60_exceptions.md R202) -/
def Obligations.ReadyConvertCompletesAndKeepsOtherBytes : Prop :=
  ∀ s : State, s.Inv → ConvertReady s →
    ∃ m, exec .convert s = .next { s with
        code := .ok, result0 := 0#32, busy := false, dst := { s.dst with bytes := m } } ∧
      ∀ a, ¬ DstActive s.geom a → memRead m a = s.dst.read a

/-- A CONVERT that executes normally with kernel 0 completes with OK and, for every image row i and byte b < 4w, leaves
the source byte at RowBase(s, h, i) + b in the destination byte at RowBase(d, h, i) + b. (R150; R151; R153) -/
def Obligations.PassthroughCopiesEveryActiveByte : Prop :=
  ∀ s : State, s.Inv → ConvertReady s → s.session.kernel = .passthrough →
    ∃ t, exec .convert s = .next t ∧ t.code = .ok ∧
      ∀ i b, i < s.geom.h → b < 4 * s.geom.w →
        t.dst.read (rowBase s.geom.d s.geom.h i + b) = s.src.read (rowBase s.geom.s s.geom.h i + b)

/-- A CONVERT that executes normally with kernel 1 completes with OK and, for every image row i and pixel x, the
destination bytes at RowBase(d, h, i) + 4x are the source bytes at RowBase(s, h, i) + 3x + 2, + 1 and + 0, and then 0.
(R152) -/
def Obligations.Rgb24PixelsAreWidened : Prop :=
  ∀ s : State, s.Inv → ConvertReady s → s.session.kernel = .rgb24 →
    ∃ t, exec .convert s = .next t ∧ t.code = .ok ∧
      ∀ i x, i < s.geom.h → x < s.geom.w →
        t.dst.read (rowBase s.geom.d s.geom.h i + 4 * x) = s.src.read (rowBase s.geom.s s.geom.h i + 3 * x + 2) ∧
        t.dst.read (rowBase s.geom.d s.geom.h i + 4 * x + 1) = s.src.read (rowBase s.geom.s s.geom.h i + 3 * x + 1) ∧
        t.dst.read (rowBase s.geom.d s.geom.h i + 4 * x + 2) = s.src.read (rowBase s.geom.s s.geom.h i + 3 * x) ∧
        t.dst.read (rowBase s.geom.d s.geom.h i + 4 * x + 3) = 0#8

/-- A CONVERT that executes normally with kernel 2 completes with OK and, for every image row i and pair p < w/2, with y0,
u, y1, v the source bytes at RowBase(s, h, i) + 4p + 0, 1, 2, 3, the destination bytes at RowBase(d, h, i) + 8p are B,
G, R, 0 of YCC(y0, u, v) and those at + 8p + 4 are B, G, R, 0 of YCC(y1, u, v). (R154; R155) -/
def Obligations.Yuv422PairsAreDecoded : Prop :=
  ∀ s : State, s.Inv → ConvertReady s → s.session.kernel = .yuv422 →
    ∃ t, exec .convert s = .next t ∧ t.code = .ok ∧
      ∀ i p n, i < s.geom.h → p < s.geom.w / 2 → n < 2 →
        let row := rowBase s.geom.s s.geom.h i + 4 * p
        let px := ycc (s.src.read (row + 2 * n)) (s.src.read (row + 1)) (s.src.read (row + 3))
        let out := rowBase s.geom.d s.geom.h i + 8 * p + 4 * n
        t.dst.read out = px.b ∧ t.dst.read (out + 1) = px.g ∧ t.dst.read (out + 2) = px.r ∧ t.dst.read (out + 3) = 0#8

/-- A CONVERT that executes normally with kernel 3 completes with OK and, for every block row j < h/2, block column p <
w/2 and each of its four luma samples (row 2j + m, column 2p + n), the destination pixel of that row and column is B,
G, R, 0 of YCC of that luma byte with Cb, Cr the bytes at h x |s| + RowBase(s, h/2, j) + 2p and + 1. (R157; R158) -/
def Obligations.Yuv420BlocksAreDecoded : Prop :=
  ∀ s : State, s.Inv → ConvertReady s → s.session.kernel = .yuv420 →
    ∃ t, exec .convert s = .next t ∧ t.code = .ok ∧
      ∀ j p m n, j < s.geom.h / 2 → p < s.geom.w / 2 → m < 2 → n < 2 →
        let chroma := s.geom.h * s.geom.s.natAbs + rowBase s.geom.s (s.geom.h / 2) j + 2 * p
        let px := ycc (s.src.read (rowBase s.geom.s s.geom.h (2 * j + m) + (2 * p + n))) (s.src.read chroma)
          (s.src.read (chroma + 1))
        let out := rowBase s.geom.d s.geom.h (2 * j + m) + 8 * p + 4 * n
        t.dst.read out = px.b ∧ t.dst.read (out + 1) = px.g ∧ t.dst.read (out + 2) = px.r ∧ t.dst.read (out + 3) = 0#8

/-- The kernel of a CONVERT that executes normally makes 4wh, 3wh, 2wh or wh + wh/2 reads (passthrough, RGB24, 4:2:2,
4:2:0) and 4wh writes. (70_reset_and_hazards.md R246) -/
def Obligations.PortAccessCountsAreExact : Prop :=
  ∀ s : State, s.Inv → ConvertReady s →
    ∃ p, runKernel s.geom (s.ports s.geom) = some p ∧
      p.writes.length = 4 * s.geom.w * s.geom.h ∧
      p.reads.length = (match s.session.kernel with
        | .passthrough => 4 * s.geom.w * s.geom.h
        | .rgb24 => 3 * s.geom.w * s.geom.h
        | .yuv422 => 2 * s.geom.w * s.geom.h
        | .yuv420 => s.geom.w * s.geom.h + s.geom.w * s.geom.h / 2)

/-- The kernel of a CONVERT that executes normally reads exactly the active bytes of each source row (and chroma row), all
below SrcBytes, writes exactly the 4w active bytes of each destination row, all below DstBytes, and leaves every other
destination byte, padding and excess included, as it was. (R59) -/
def Obligations.KernelTouchesExactlyTheActiveBytes : Prop :=
  ∀ s : State, s.Inv → ConvertReady s →
    ∃ p, runKernel s.geom (s.ports s.geom) = some p ∧
      (∀ a, a ∈ p.reads ↔ SrcActive s.geom a) ∧ (∀ a, a ∈ p.writes ↔ DstActive s.geom a) ∧
      (∀ a, a ∈ p.reads → a < s.geom.srcBytes) ∧ (∀ a, a ∈ p.writes → a < s.geom.dstBytes) ∧
      (∀ a, ¬ DstActive s.geom a → memRead p.dst a = s.dst.read a)

/-- Two runs of a CONVERT that executes normally, from states that differ only in the destination window's contents, leave
the same active destination bytes. (20_memory.md R52) -/
def Obligations.DestinationContentsNeverMatter : Prop :=
  ∀ (s : State) (m : Memory), s.Inv → ConvertReady s → (State.withDst s m).Inv →
    ∃ t t', exec .convert s = .next t ∧ exec .convert (State.withDst s m) = .next t' ∧
      ∀ a, DstActive s.geom a → t'.dst.read a = t.dst.read a

/-- If two source windows of the same length agree on the active source bytes, a CONVERT that executes normally leaves the
same destination window from both. (20_memory.md R59) -/
def Obligations.SourcePaddingNeverMatters : Prop :=
  ∀ (s : State) (w : Window), s.Inv → ConvertReady s → w.wf = true → w.len = s.src.len →
    (∀ a, SrcActive s.geom a → w.read a = s.src.read a) →
    ∃ t t', exec .convert s = .next t ∧ exec .convert { s with src := w } = .next t' ∧ t'.dst = t.dst ∧
      t'.src = w

/-- If a CONVERT gives t from s, then from s with any other SESS_INTERLACE, SESS_PAR_NUM and SESS_PAR_DEN it gives t with
those registers so changed: the same frame. (R148) -/
def Obligations.InterlaceAndAspectRatioNeverMatter : Prop :=
  ∀ (s t : State) (il : BitVec 1) (pn pd : Word), exec .convert s = .next t →
    exec .convert { s with session := { s.session with interlace := il, parNum := pn, parDen := pd } } =
      .next { t with session := { t.session with interlace := il, parNum := pn, parDen := pd } }

/-- If the host broke its duty during a CONVERT that otherwise executes normally (disturbed, which
HostAccessDuringConvertDisturbsIt ties to the host's acts), the CONVERT completes with OK and RESULT0 = 0; the active
destination bytes are any value and every other destination byte, the session and the source window are as before. The
spec states only that the active bytes, and those the host touched, are any value (I4): that the code is still OK and
that this step keeps every other byte is the model's choice (log 9, DESIGN CHOICE, unsafe in this).
(93_implementation_defined.md I4; 70_reset_and_hazards.md R241) -/
def Obligations.DisturbedConvertStillKeepsOtherBytes : Prop :=
  ∀ s : State, s.Inv → s.disturbed = true → ConvertReady { s with disturbed := false } →
    ∃ t, exec .convert s = .next t ∧ t.code = .ok ∧ t.result0 = 0#32 ∧ t.busy = false ∧ t.session = s.session ∧
      t.src = s.src ∧ t.dst.len = s.dst.len ∧ ∀ a, ¬ DstActive s.geom a → t.dst.read a = s.dst.read a

/-- For all bytes y, cb, cr, with c = y - 16, d = cb - 128, e = cr - 128 as integers, the channels of YCC are max(0,
min(255, .)) of floor((298c + 409e + 128) / 256), floor((298c - 100d - 208e + 128) / 256) and floor((298c + 516d +
128) / 256); and clip(v) is max(0, min(255, v)) for every integer v. (R140; R141) -/
def Obligations.ColourMathIsTheMatrixClipped : Prop :=
  (∀ y cb cr : Byte,
      ((ycc y cb cr).r.toNat : Int) =
        max 0 (min 255 ((298 * ((y.toNat : Int) - 16) + 409 * ((cr.toNat : Int) - 128) + 128) / 256)) ∧
      ((ycc y cb cr).g.toNat : Int) =
        max 0 (min 255 ((298 * ((y.toNat : Int) - 16) - 100 * ((cb.toNat : Int) - 128)
          - 208 * ((cr.toNat : Int) - 128) + 128) / 256)) ∧
      ((ycc y cb cr).b.toNat : Int) =
        max 0 (min 255 ((298 * ((y.toNat : Int) - 16) + 516 * ((cb.toNat : Int) - 128) + 128) / 256))) ∧
    ∀ v : Int, ((clip v).toNat : Int) = max 0 (min 255 v)

/-- For all bytes y, cb, cr, each of the three sums of YCC divided by 256 with floor and with truncation toward zero gives
the same byte after clip. (R143) -/
def Obligations.RoundingOfTheShiftIsIrrelevant : Prop :=
  ∀ y cb cr : Byte,
    clip ((yccSums y cb cr).1.tdiv 256) = clip (asr (yccSums y cb cr).1 8) ∧
    clip ((yccSums y cb cr).2.1.tdiv 256) = clip (asr (yccSums y cb cr).2.1 8) ∧
    clip ((yccSums y cb cr).2.2.tdiv 256) = clip (asr (yccSums y cb cr).2.2 8)

/-- For all bytes y, cb, cr, each of the sums 298c + 409e + 128, 298c - 100d - 208e + 128 and 298c + 516d + 128 lies in
-70688..136882, which is within -2^18..2^18 - 1. (R144) -/
def Obligations.ColourSumsFitNineteenBits : Prop :=
  ∀ y cb cr : Byte, ∀ v : Int,
    v = 298 * ((y.toNat : Int) - 16) + 409 * ((cr.toNat : Int) - 128) + 128 ∨
      v = 298 * ((y.toNat : Int) - 16) - 100 * ((cb.toNat : Int) - 128) - 208 * ((cr.toNat : Int) - 128) + 128 ∨
      v = 298 * ((y.toNat : Int) - 16) + 516 * ((cb.toNat : Int) - 128) + 128 →
    (v = (yccSums y cb cr).1 ∨ v = (yccSums y cb cr).2.1 ∨ v = (yccSums y cb cr).2.2) ∧
    -70688 ≤ v ∧ v ≤ 136882 ∧ -2 ^ 18 ≤ v ∧ v < 2 ^ 18

/-- For every plane of n rows, stride s and row i < n: with s > 0 the row starts at i x s, with s < 0 at (n - 1 - i) x
(-s); with a negative stride the last image row is at 0; and the start lies in 0..(n - 1) x |s|. (R55) -/
def Obligations.RowsLieAsRowBaseSays : Prop :=
  ∀ (s : Int) (n i : Nat), s ≠ 0 → i < n →
    (0 < s → (rowBase s n i : Int) = i * s) ∧ (s < 0 → (rowBase s n i : Int) = (n - 1 - i) * (-s)) ∧
    (0 < s → rowBase s n 0 = 0) ∧ (s < 0 → rowBase s n (n - 1) = 0) ∧ rowBase s n i ≤ (n - 1) * s.natAbs

/-- In every state a host load of CMD returns 0 and changes nothing else; a store of v to CMD with BUSY = 0 makes v the
pending word, sets BUSY and latches ARG0 to ARG6, changing nothing else but the model's own latency, disturbance and
free-value fields; with BUSY = 1 it changes nothing. (R34) -/
def Obligations.CmdWriteIssuesOnlyWhenIdle : Prop :=
  ∀ (s : State) (v : Word),
    hostMove (.load s.cfg.regBase 4) s = .next { s with readData := 0#32 } ∧
    (s.busy = false → ∃ n k, hostMove (.store s.cfg.regBase 4 v) s =
      .next { s with cmd := v, busy := true, latched := s.args, delay := n, draws := k, disturbed := false }) ∧
    (s.busy = true → hostMove (.store s.cfg.regBase 4 v) s = .next s)

/-- With BUSY = 0, a store of v to ARG i (offset 0x10 + 4i) changes only that operand register, and a load of the same
offset then returns v. (10_state.md R21 and R22) -/
def Obligations.OperandRegistersReadBack : Prop :=
  ∀ (s : State) (i : Fin 7) (v : Word), s.busy = false →
    ∃ a : Args, hostMove (.store (s.cfg.regBase + (0x10 + 4 * i.val)) 4 v) s = .next { s with args := a } ∧
      a.get i = v ∧ (∀ j, j ≠ i → a.get j = s.args.get j) ∧
      hostMove (.load (s.cfg.regBase + (0x10 + 4 * i.val)) 4) { s with args := a } =
        .next { s with args := a, readData := v }

/-- With BUSY = 1, an aligned 32-bit store to any offset of the window changes nothing, and STATUS reads as BUSY = 1 with
the code of the previous command. (10_state.md R40) -/
def Obligations.BusyBlockIgnoresRegisterWrites : Prop :=
  ∀ s : State, s.busy = true →
    (∀ (off : Nat) (v : Word), off < 256 → off % 4 = 0 → hostMove (.store (s.cfg.regBase + off) 4 v) s = .next s) ∧
    hostMove (.load (s.cfg.regBase + 4) 4) s =
      .next { s with readData := 0x80000000#32 ||| (s.code.toCode).setWidth 32 }

/-- In every state the offsets 0x0C, 0x2C to 0x3C and 0x68 to 0xFC read 0 and ignore writes; writes to STATUS, RESULT0 and
the session registers are ignored; bits [30:4] of STATUS, [31:1] of SESS_VALID, [31:2] of SESS_KERNEL and [31:1] of
SESS_INTERLACE read 0. (R35) -/
def Obligations.ReservedAndReadOnlyOffsets : Prop :=
  ∀ (s : State) (off : Nat) (v : Word), off % 4 = 0 →
    (off = 0x0C ∨ (0x2C ≤ off ∧ off ≤ 0x3C) ∨ (0x68 ≤ off ∧ off ≤ 0xFC) →
      hostMove (.load (s.cfg.regBase + off) 4) s = .next { s with readData := 0#32 } ∧
      hostMove (.store (s.cfg.regBase + off) 4 v) s = .next s) ∧
    (off = 0x04 ∨ off = 0x08 ∨ (0x40 ≤ off ∧ off ≤ 0x64) → hostMove (.store (s.cfg.regBase + off) 4 v) s = .next s) ∧
    (readOffset s 0x04).extractLsb' 4 27 = 0#27 ∧ (readOffset s 0x40).extractLsb' 1 31 = 0#31 ∧
    (readOffset s 0x48).extractLsb' 2 30 = 0#30 ∧ (readOffset s 0x5C).extractLsb' 1 31 = 0#31

/-- In every state, busy or not, an aligned 32-bit host load at the offset of CMD returns 0; at STATUS, BUSY in bit 31 and
in bits [3:0] the CODE, which is 0, 1, 2, 3, 4, 5, 6 for OK, UNSUPPORTED_FORMAT, GEOMETRY_ERROR, NO_MORE_FORMATS,
NOT_READY, BUFFER_ERROR, ILLEGAL_COMMAND, the rest 0; at RESULT0, ARG0 to ARG6 and each of the ten session registers,
that field of the state, zero-extended (the kernel as its tag 0 to 3); and it changes nothing but what the host read
(readData, the model's own field, log 13). (10_state.md R21, R22, R23, R25, R27, R28, R29, R30, R32, R34 and R40;
60_exceptions.md R200; 40_registry.md R100) -/
def Obligations.SessionRegistersReadAtTheirOffsets : Prop :=
  ∀ (s : State) (off : Nat) (v : Word),
    (off, v) ∈ [(0x00, 0#32),
      (0x04, BitVec.ofBool s.busy ++ 0#27 ++ (match s.code with
        | .ok => 0#4
        | .unsupportedFormat => 1#4
        | .geometryError => 2#4
        | .noMoreFormats => 3#4
        | .notReady => 4#4
        | .bufferError => 5#4
        | .illegalCommand => 6#4)),
      (0x08, s.result0), (0x10, s.args.arg0), (0x14, s.args.arg1), (0x18, s.args.arg2), (0x1C, s.args.arg3),
      (0x20, s.args.arg4), (0x24, s.args.arg5), (0x28, s.args.arg6),
      (0x40, if s.session.valid then 1#32 else 0#32), (0x44, s.session.format),
      (0x48, match s.session.kernel with
        | .passthrough => 0#32
        | .rgb24 => 1#32
        | .yuv422 => 2#32
        | .yuv420 => 3#32),
      (0x4C, s.session.width), (0x50, s.session.height), (0x54, s.session.srcStride), (0x58, s.session.dstStride),
      (0x5C, s.session.interlace.setWidth 32), (0x60, s.session.parNum), (0x64, s.session.parDen)] →
    hostMove (.load (s.cfg.regBase + off) 4) s = .next { s with readData := v }

/-- A host load or store of at least one byte that shares a byte with the 256-byte window (one that starts before it or
runs past its end too), and is not 4 bytes wide at an offset that is a multiple of 4, is refused with registerAccess;
an aligned 32-bit one inside the window always gives a next state. (R54) -/
def Obligations.MisshapenRegisterAccessIsRefused : Prop :=
  ∀ (s : State) (addr size : Nat) (v : Word), 0 < size → s.cfg.regBase < addr + size → addr < s.cfg.regBase + 256 →
    (size ≠ 4 ∨ addr < s.cfg.regBase ∨ (addr - s.cfg.regBase) % 4 ≠ 0 →
      hostMove (.store addr size v) s = .refused .registerAccess ∧
      hostMove (.load addr size) s = .refused .registerAccess) ∧
    (size = 4 → s.cfg.regBase ≤ addr → (addr - s.cfg.regBase) % 4 = 0 →
      (∃ t, hostMove (.store addr size v) s = .next t) ∧ ∃ t, hostMove (.load addr size) s = .next t)

/-- A host load that gives a next state changes only readData, the model's own record of what the host's load returned
(log 13). (20_memory.md R61) -/
def Obligations.RegisterReadsHaveNoSideEffect : Prop :=
  ∀ (s t : State) (addr size : Nat), hostMove (.load addr size) s = .next t → t = { s with readData := t.readData }

/-- A step with BUSY = 1 that does not yet complete the command and is not an RST leaves CODE, RESULT0, the session, the
operand registers, the latched copies, the pending word and BUSY as they were. (10_state.md R31, R37 and R40) -/
def Obligations.PendingCommandIsInvisibleUntilItCompletes : Prop :=
  ∀ s t : State, step s = .next t → s.busy = true → 0 < s.delay → (∀ rest, s.input ≠ .rst :: rest) →
    t.code = s.code ∧ t.result0 = s.result0 ∧ t.session = s.session ∧ t.args = s.args ∧ t.latched = s.latched ∧
      t.cmd = s.cmd ∧ t.busy = true ∧ t.delay + 1 = s.delay

/-- From a state of the invariant with BUSY = 1 and no host move to come, delay + 1 steps end with BUSY = 0, except for a
CONVERT whose checks all pass and whose declared length exceeds the memory the host bound, which is refused (I2; log
8). (70_reset_and_hazards.md R245; 93_implementation_defined.md I2) -/
def Obligations.PendingCommandCompletes : Prop :=
  ∀ s : State, s.Inv → s.busy = true → s.input = [] →
    (∃ t, Host.Core.run Sys2Proof.core (s.delay + 1) s = .next t ∧ State.busy t = false) ∨
      (decode s.cmd = .command .convert ∧
        (∃ g, convertCheck s.session s.latched = .runs g ∧ s.windowsBound g = false) ∧
        Host.Core.run Sys2Proof.core (s.delay + 1) s = .refused Refusal.windowNotBound)

/-- From a state of the invariant with BUSY = 1 and WAIT as the host's only move, delay + 2 steps end with BUSY = 0, no
move left and STATUS (the code, BUSY = 0) as what the host read, except for a CONVERT whose checks all pass and whose
declared length exceeds the memory the host bound, which is refused (I2; log 8). (30_encoding.md R77;
70_reset_and_hazards.md R240 and R245) -/
def Obligations.WaitReturnsTheCompletedStatus : Prop :=
  ∀ s : State, s.Inv → s.busy = true → s.input = [.wait] →
    (∃ t, Host.Core.run Sys2Proof.core (s.delay + 2) s = .next t ∧ State.busy t = false ∧ State.input t = [] ∧
      State.readData t = (State.code t).toCode.setWidth 32) ∨
      (decode s.cmd = .command .convert ∧
        (∃ g, convertCheck s.session s.latched = .runs g ∧ s.windowsBound g = false) ∧
        Host.Core.run Sys2Proof.core (s.delay + 2) s = .refused Refusal.windowNotBound)

/-- RESOLVE RGB24, 640 expands, with REG_BASE = 0, to the stores (0x10, 0x14), (0x14, 0x280), (0x18, 0), (0x00, 0x04) and
WAIT. (30_encoding.md R78) -/
def Obligations.ResolveExampleExpandsAsWritten : Prop :=
  AsmLine.expand ⟨65535, 0⟩ (.command .resolve [.fmt .rgb24, .num 640]) =
    [.store 0x10 4 0x00000014#32, .store 0x14 4 0x00000280#32, .store 0x18 4 0x00000000#32,
     .store 0x00 4 0x00000004#32, .wait]

/-- From an idle state whose host moves are the expansion of MNEMONIC ops, after one step per operand the command reads
and one for CMD, the command's own word is pending with BUSY = 1, every ARG register the command reads holds its
operand (0 where omitted) and is latched, every ARG register it does not read keeps its value, and WAIT is the host's
next move. (R78) -/
def Obligations.ExpansionIssuesTheCommandWithItsOperands : Prop :=
  ∀ (s : State) (i : Instr) (ops : List AsmOperand), s.busy = false →
    (AsmLine.command i ops).wellFormed = true → s.input = AsmLine.expand s.cfg (.command i ops) →
    ∃ t, Host.Core.run Sys2Proof.core (i.arity + 1) s = .next t ∧ State.busy t = true ∧ State.cmd t = encode i ∧
      State.input t = [.wait] ∧ State.latched t = State.args t ∧
      ∀ k : Fin 7, (State.args t).get k =
        if k.val < i.arity then (match ops[k.val]? with | some o => AsmOperand.word o | none => 0#32)
        else s.args.get k

/-- While a CONVERT is pending, a host write of a byte of its source window (offset < SRC_LEN) stores it, and a host write
or read of a byte of its destination window (offset < DST_LEN) leaves that byte, and what was read, as any value; each
sets disturbed and may change besides only the active bytes of the destination window, which are any value (I4). With
no CONVERT pending, and beyond SRC_LEN or DST_LEN with one, the same accesses store and return plain bytes and leave
disturbed as it was; and so does a host read of a source byte always. That the model has these host moves at all, and
the field, is the model's choice (log 9, DESIGN CHOICE). (93_implementation_defined.md I4; 70_reset_and_hazards.md
R241; 60_exceptions.md R213) -/
def Obligations.HostAccessDuringConvertDisturbsIt : Prop :=
  ∀ (s : State) (off : Nat) (v : Byte),
    (off < s.src.len → hostMove (.srcLoad off) s = .next { s with readData := (s.src.read off).setWidth 32 }) ∧
    (s.busy = true → decode s.cmd = .command .convert →
      (off < s.src.len → off < s.latched.arg2.toNat →
        ∃ (m : Memory) (k : Nat), hostMove (.srcStore off v) s = .next { s with
            src := s.src.write off v, dst := { s.dst with bytes := m }, draws := k, disturbed := true } ∧
          ∀ a, ¬ DstWindowActive s a → memRead m a = s.dst.read a) ∧
      (off < s.dst.len → off < s.latched.arg3.toNat →
        (∃ (m : Memory) (k : Nat), hostMove (.dstStore off v) s = .next { s with
            dst := { s.dst with bytes := m }, draws := k, disturbed := true } ∧
          ∀ a, a ≠ off → ¬ DstWindowActive s a → memRead m a = s.dst.read a) ∧
        ∃ (m : Memory) (k : Nat) (c : Byte), hostMove (.dstLoad off) s = .next { s with
            readData := BitVec.setWidth 32 c, dst := { s.dst with bytes := m }, draws := k, disturbed := true } ∧
          ∀ a, a ≠ off → ¬ DstWindowActive s a → memRead m a = s.dst.read a)) ∧
    (s.busy = false ∨ decode s.cmd ≠ .command .convert ∨ s.latched.arg2.toNat ≤ off → off < s.src.len →
      hostMove (.srcStore off v) s = .next { s with src := s.src.write off v }) ∧
    (s.busy = false ∨ decode s.cmd ≠ .command .convert ∨ s.latched.arg3.toNat ≤ off → off < s.dst.len →
      hostMove (.dstStore off v) s = .next { s with dst := s.dst.write off v } ∧
      hostMove (.dstLoad off) s = .next { s with readData := (s.dst.read off).setWidth 32 })
end

