-- ==== Sys2Proof/Laws/Loops.lean ====
section
/-! SUPPORT. The loops of the pseudocode, one induction each. -/

namespace Sys2Proof.Machine

/-- A loop whose body keeps going and carries `P k` to `P (k + 1)` ends in `P n`. -/
theorem forUp_spec {σ : Type} {body : Nat → σ → Option σ} (P : Nat → σ → Prop) {n : Nat} {p : σ} (h0 : P 0 p)
    (hs : ∀ k, k < n → ∀ q, P k q → ∃ q', body k q = some q' ∧ P (k + 1) q') :
    ∃ q, forUp n body p = some q ∧ P n q := by
  induction n with
  | zero => exact ⟨p, rfl, h0⟩
  | succ n ih =>
    obtain ⟨q, hq, hP⟩ := ih fun k hk => hs k (by omega)
    obtain ⟨q', hq', hP'⟩ := hs n (by omega) q hP
    exact ⟨q', by rw [forUp, hq, Option.bind_some, hq'], hP'⟩

/-- A loop whose body carries `P k` to `P (k + 1)` ends in `P n`. -/
theorem loopUp_spec {σ : Type} {body : Nat → σ → σ} (P : Nat → σ → Prop) {n : Nat} {p : σ} (h0 : P 0 p)
    (hs : ∀ k, k < n → ∀ q, P k q → P (k + 1) (body k q)) : P n (loopUp n body p) := by
  induction n with
  | zero => exact h0
  | succ n ih => exact hs n (by omega) _ (ih fun k hk => hs k (by omega))

/-- What a loop ends in, when its body never goes on to a state outside `P`. -/
theorem forUp_keeps {σ : Type} {body : Nat → σ → Option σ} (P : σ → Prop) {n : Nat} {p q : σ} (h0 : P p)
    (hs : ∀ k, k < n → ∀ p q, P p → body k p = some q → P q) (h : forUp n body p = some q) : P q := by
  induction n generalizing q with
  | zero =>
    simp only [forUp, Option.some.injEq] at h
    exact h ▸ h0
  | succ n ih =>
    simp only [forUp] at h
    obtain ⟨r, hr, hb⟩ := Option.bind_eq_some_iff.1 h
    exact hs n (by omega) r q (ih (fun k hk => hs k (by omega)) hr) hb

end Sys2Proof.Machine
end

