-- ==== Sys2Proof/Laws/Geometry.lean ====
section
/-! SUPPORT. Where rows lie (20_memory.md R55 to R59): rows do not overlap, and every active byte is inside the
needed length. -/

namespace Sys2Proof.Machine

/-- The memory row that holds image row i of an n-row plane of stride s. -/
def memRow (s : Int) (n i : Nat) : Nat := if 0 < s then i else n - 1 - i

theorem rowBase_eq (s : Int) (n i : Nat) : rowBase s n i = memRow s n i * s.natAbs := by
  unfold rowBase memRow; split <;> rfl

theorem memRow_lt {s : Int} {n i : Nat} (h : i < n) : memRow s n i < n := by
  unfold memRow; split <;> omega

theorem memRow_inj {s : Int} {n i i' : Nat} (h : i < n) (h' : i' < n) (he : memRow s n i = memRow s n i') :
    i = i' := by
  unfold memRow at he; split at he <;> omega

theorem mul_add_lt {k m b n : Nat} (hk : k < n) (hb : b < m) : k * m + b < n * m := by
  calc k * m + b < k * m + m := by omega
    _ = (k + 1) * m := by ring
    _ ≤ n * m := Nat.mul_le_mul_right m hk

/-- "RowBase(s, n, i) lies in 0..(n-1)*|s|" (20_memory.md R55), so a byte of the row lies below n*|s|. -/
theorem rowBase_add_lt {s : Int} {n i b : Nat} (h : i < n) (hb : b < s.natAbs) :
    rowBase s n i + b < n * s.natAbs := by
  rw [rowBase_eq]; exact mul_add_lt (memRow_lt h) hb

theorem mul_add_inj {k k' m b b' : Nat} (hb : b < m) (hb' : b' < m) (h : k * m + b = k' * m + b') :
    k = k' ∧ b = b' := by
  have hm : 0 < m := by omega
  have h1 : (k * m + b) / m = k := by rw [Nat.mul_comm, Nat.mul_add_div hm, Nat.div_eq_of_lt hb, Nat.add_zero]
  have h2 : (k' * m + b') / m = k' := by rw [Nat.mul_comm, Nat.mul_add_div hm, Nat.div_eq_of_lt hb', Nat.add_zero]
  have hk : k = k' := by rw [← h1, ← h2, h]
  subst hk
  exact ⟨rfl, by omega⟩

/-- Rows of a plane do not overlap while the bytes used in each are at most |s|. -/
theorem rowBase_inj {s : Int} {n i i' b b' : Nat} (hi : i < n) (hi' : i' < n) (hb : b < s.natAbs)
    (hb' : b' < s.natAbs) (h : rowBase s n i + b = rowBase s n i' + b') : i = i' ∧ b = b' := by
  rw [rowBase_eq, rowBase_eq] at h
  obtain ⟨h1, h2⟩ := mul_add_inj hb hb' h
  exact ⟨memRow_inj hi hi' h1, h2⟩

/-- What holds when a kernel starts (42_kernels.md R145), as far as its port accesses need it. -/
structure Geom.Ok (g : Geom) : Prop where
  src    : g.srcActive ≤ g.s.natAbs
  dst    : 4 * g.w ≤ g.d.natAbs
  srcLen : g.srcBytes ≤ g.srcLen
  dstLen : g.dstBytes ≤ g.dstLen
  even   : g.kernel = .yuv422 ∨ g.kernel = .yuv420 → g.w % 2 = 0
  evenH  : g.kernel = .yuv420 → g.h % 2 = 0

theorem Geom.dstRow_add_lt {g : Geom} (ok : g.Ok) {i b : Nat} (hi : i < g.h) (hb : b < 4 * g.w) :
    g.dstRow i + b < g.dstLen :=
  lt_of_lt_of_le (rowBase_add_lt hi (lt_of_lt_of_le hb ok.dst)) ok.dstLen

theorem Geom.dstRow_inj {g : Geom} (ok : g.Ok) {i i' b b' : Nat} (hi : i < g.h) (hi' : i' < g.h)
    (hb : b < 4 * g.w) (hb' : b' < 4 * g.w) (h : g.dstRow i + b = g.dstRow i' + b') : i = i' ∧ b = b' :=
  rowBase_inj hi hi' (lt_of_lt_of_le hb ok.dst) (lt_of_lt_of_le hb' ok.dst) h

theorem Geom.le_srcBytes (g : Geom) : g.h * g.s.natAbs ≤ g.srcBytes := by
  unfold Geom.srcBytes
  split <;> omega

theorem Geom.srcRow_add_lt {g : Geom} (ok : g.Ok) {i b : Nat} (hi : i < g.h) (hb : b < g.srcActive) :
    g.srcRow i + b < g.srcLen :=
  lt_of_lt_of_le (rowBase_add_lt hi (lt_of_lt_of_le hb ok.src)) (le_trans g.le_srcBytes ok.srcLen)

theorem Geom.chromaRow_add_lt {g : Geom} (ok : g.Ok) (hk : g.kernel = .yuv420) {j b : Nat} (hj : j < g.h / 2)
    (hb : b < g.w) : g.chromaRow j + b < g.srcLen := by
  have h1 := ok.srcLen
  have h2 := ok.src
  unfold Geom.srcBytes at h1
  unfold Geom.srcActive at h2
  rw [hk] at h1 h2
  have h3 := rowBase_add_lt (s := g.s) hj (lt_of_lt_of_le hb h2)
  unfold Geom.chromaRow Geom.chromaBase
  simp only at h1
  omega

end Sys2Proof.Machine
end

