-- ==== Sys2Proof/Laws/Memory.lean ====
section
/-! SUPPORT. The laws of a window's bytes: a read after a write, the canonical form, and that the canonical form is
canonical. -/

namespace Sys2Proof.Machine

@[simp] theorem memRead_nil (a : Nat) : memRead [] a = unlisted := rfl

theorem memRead_cons (b : Nat) (u : Byte) (m : Memory) (a : Nat) :
    memRead ((b, u) :: m) a = if a = b then u else memRead m a := rfl

theorem memWfFrom_cons {lo hi b : Nat} {u : Byte} {m : Memory} :
    memWfFrom lo hi ((b, u) :: m) = true ↔
      lo ≤ b ∧ b < hi ∧ u ≠ unlisted ∧ memWfFrom (b + 1) hi m = true := by
  simp [memWfFrom, and_assoc]

/-- A write leaves every other byte alone. -/
theorem memRead_memWrite_ne (m : Memory) {a a' : Nat} (v : Byte) (h : a' ≠ a) :
    memRead (memWrite m a v) a' = memRead m a' := by
  induction m with
  | nil => unfold memWrite; split <;> simp [memRead_cons, h]
  | cons c m ih =>
    obtain ⟨b, u⟩ := c
    unfold memWrite
    split
    · split <;> simp [memRead_cons, h]
    · split
      · rename_i _ hab
        subst hab
        split <;> simp [memRead_cons, h]
      · simp [memRead_cons, ih]

/-- Below the first listed offset every byte reads as unlisted. -/
theorem memRead_below {lo hi : Nat} {m : Memory} (h : memWfFrom lo hi m = true) {a : Nat} (ha : a < lo) :
    memRead m a = unlisted := by
  induction m generalizing lo with
  | nil => rfl
  | cons c m ih =>
    obtain ⟨b, u⟩ := c
    obtain ⟨h1, _, _, h2⟩ := memWfFrom_cons.1 h
    rw [memRead_cons, if_neg (by omega)]
    exact ih h2 (by omega)

/-- Above the window every byte reads as unlisted. -/
theorem memRead_above {lo hi : Nat} {m : Memory} (h : memWfFrom lo hi m = true) {a : Nat} (ha : hi ≤ a) :
    memRead m a = unlisted := by
  induction m generalizing lo with
  | nil => rfl
  | cons c m ih =>
    obtain ⟨b, u⟩ := c
    obtain ⟨_, h1, _, h2⟩ := memWfFrom_cons.1 h
    rw [memRead_cons, if_neg (by omega)]
    exact ih h2

/-- A read after a write to the same place gives the value written. -/
theorem memRead_memWrite_self {lo hi : Nat} {m : Memory} (h : memWfFrom lo hi m = true) (a : Nat) (v : Byte) :
    memRead (memWrite m a v) a = v := by
  induction m generalizing lo with
  | nil =>
    unfold memWrite
    split
    · rename_i hv; simp [hv]
    · simp [memRead_cons]
  | cons c m ih =>
    obtain ⟨b, u⟩ := c
    obtain ⟨_, _, _, h2⟩ := memWfFrom_cons.1 h
    unfold memWrite
    split
    · rename_i hab
      split
      · rename_i hv
        rw [memRead_cons, if_neg (by omega), memRead_below h2 (by omega), hv]
      · simp [memRead_cons]
    · split
      · rename_i _ hab
        subst hab
        split
        · rename_i hv
          rw [memRead_below h2 (by omega), hv]
        · simp [memRead_cons]
      · rename_i _ hne
        rw [memRead_cons, if_neg hne]
        exact ih h2

/-- A write inside the window keeps the canonical form. -/
theorem memWfFrom_memWrite {lo hi : Nat} {m : Memory} (h : memWfFrom lo hi m = true) {a : Nat} (v : Byte)
    (hlo : lo ≤ a) (hhi : a < hi) : memWfFrom lo hi (memWrite m a v) = true := by
  induction m generalizing lo with
  | nil => unfold memWrite; split <;> simp_all [memWfFrom]
  | cons c m ih =>
    obtain ⟨b, u⟩ := c
    obtain ⟨h1, h2, h3, h4⟩ := memWfFrom_cons.1 h
    unfold memWrite
    split
    · split
      · exact h
      · rename_i hv
        exact memWfFrom_cons.2 ⟨hlo, hhi, hv, memWfFrom_cons.2 ⟨by omega, h2, h3, h4⟩⟩
    · split
      · rename_i _ hab
        subst hab
        split
        · cases m with
          | nil => rfl
          | cons c' m =>
            obtain ⟨b', u'⟩ := c'
            obtain ⟨k1, k2, k3, k4⟩ := memWfFrom_cons.1 h4
            exact memWfFrom_cons.2 ⟨by omega, k2, k3, k4⟩
        · rename_i hv
          exact memWfFrom_cons.2 ⟨h1, h2, hv, h4⟩
      · exact memWfFrom_cons.2 ⟨h1, h2, h3, ih h4 (by omega)⟩

/-- The contents of a window bound to given bytes are in canonical form. -/
theorem memWfFrom_memOfBytes (a : Nat) (vs : List Byte) :
    memWfFrom a (a + vs.length) (memOfBytes a vs) = true := by
  suffices h : ∀ lo hi, lo ≤ a → a + vs.length ≤ hi → memWfFrom lo hi (memOfBytes a vs) = true from
    h _ _ le_rfl le_rfl
  induction vs generalizing a with
  | nil => intro lo hi _ _; rfl
  | cons v vs ih =>
    intro lo hi hlo hhi
    simp only [List.length_cons] at hhi
    unfold memOfBytes
    split
    · exact ih (a + 1) lo hi (by omega) (by omega)
    · rename_i hv
      exact memWfFrom_cons.2 ⟨hlo, by omega, hv, ih (a + 1) _ _ le_rfl (by omega)⟩

/-- A window bound to given bytes reads as those bytes. -/
theorem memRead_memOfBytes (a : Nat) (vs : List Byte) (i : Nat) (hi : i < vs.length) :
    memRead (memOfBytes a vs) (a + i) = vs[i] := by
  induction vs generalizing a i with
  | nil => simp at hi
  | cons v vs ih =>
    unfold memOfBytes
    cases i with
    | zero =>
      split
      · rename_i hv
        rw [memRead_below (memWfFrom_memOfBytes (a + 1) vs) (by omega)]
        simp [hv]
      · simp [memRead_cons]
    | succ i =>
      have := ih (a + 1) i (by simpa using hi)
      rw [show a + 1 + i = a + (i + 1) by omega] at this
      split
      · simpa using this
      · rw [memRead_cons, if_neg (by omega)]
        simpa using this

/-- The canonical form is canonical: memories that read alike are the same data. -/
theorem memory_ext {lo lo' hi hi' : Nat} {m m' : Memory} (h : memWfFrom lo hi m = true)
    (h' : memWfFrom lo' hi' m' = true) (heq : ∀ a, memRead m a = memRead m' a) : m = m' := by
  induction m generalizing m' lo lo' with
  | nil =>
    cases m' with
    | nil => rfl
    | cons c' m' =>
      obtain ⟨b', u'⟩ := c'
      obtain ⟨_, _, k, _⟩ := memWfFrom_cons.1 h'
      have := heq b'
      simp [memRead_cons] at this
      exact absurd this.symm k
  | cons c m ih =>
    obtain ⟨b, u⟩ := c
    obtain ⟨_, _, hu, hm⟩ := memWfFrom_cons.1 h
    cases m' with
    | nil =>
      have := heq b
      simp [memRead_cons] at this
      exact absurd this hu
    | cons c' m' =>
      obtain ⟨b', u'⟩ := c'
      obtain ⟨_, _, hu', hm'⟩ := memWfFrom_cons.1 h'
      have hbb : b = b' := by
        rcases Nat.lt_trichotomy b b' with hlt | heq' | hgt
        · have := heq b
          rw [memRead_cons, if_pos rfl, memRead_cons, if_neg (by omega), memRead_below hm' (by omega)] at this
          exact absurd this hu
        · exact heq'
        · have := heq b'
          rw [memRead_cons, if_neg (by omega), memRead_below hm (by omega), memRead_cons, if_pos rfl] at this
          exact absurd this.symm hu'
      subst hbb
      have huu : u = u' := by simpa [memRead_cons] using heq b
      subst huu
      have : m = m' := ih hm hm' fun a => by
        by_cases hab : a = b
        · subst hab
          rw [memRead_below hm (by omega), memRead_below hm' (by omega)]
        · have := heq a
          simpa [memRead_cons, hab] using this
      rw [this]

@[simp] theorem Window.write_len (w : Window) (off : Nat) (v : Byte) : (w.write off v).len = w.len := rfl

@[simp] theorem Window.ofBytes_len (vs : List Byte) : (Window.ofBytes vs).len = vs.length := rfl

/-- Writing a byte of a window keeps its canonical form. -/
theorem Window.write_wf {w : Window} (h : w.wf = true) {off : Nat} (v : Byte) (ho : off < w.len) :
    (w.write off v).wf = true :=
  memWfFrom_memWrite h v (Nat.zero_le _) ho

/-- A newly bound window is in its canonical form. -/
theorem Window.ofBytes_wf (vs : List Byte) : (Window.ofBytes vs).wf = true := by
  have := memWfFrom_memOfBytes 0 vs
  rwa [Nat.zero_add] at this

/-- A byte of a window reads as it was written. -/
theorem Window.read_write_self {w : Window} (h : w.wf = true) (off : Nat) (v : Byte) :
    (w.write off v).read off = v :=
  memRead_memWrite_self h off v

/-- Writing a byte of a window leaves every other byte alone. -/
theorem Window.read_write_ne (w : Window) {off off' : Nat} (v : Byte) (h : off' ≠ off) :
    (w.write off v).read off' = w.read off' :=
  memRead_memWrite_ne _ v h

end Sys2Proof.Machine
end

