-- ==== Sys2Proof/Laws/Kernels.lean ====
section
/-! SUPPORT. What a run of a kernel can do: one invariant of the ports, `Painted`, that every port access carries
forward, and from it what each of the four kernels leaves (42_kernels.md R150, R152, R154, R157; 20_memory.md R59;
70_reset_and_hazards.md R246). -/

namespace Sys2Proof.Machine

/-- The ports `p` of a run that began at `p0`: byte `b` of image row `i` of the destination is written, with
`val i b`, exactly where `done i b`; every other byte is as it was; exactly the offsets `rd` have been read; `nr`
reads and `nw` writes were made. `hi` bounds the destination window. -/
structure Painted (g : Geom) (hi : Nat) (val : Nat → Nat → Byte) (p0 p : Ports) (done : Nat → Nat → Prop)
    (rd : Nat → Prop) (nr nw : Nat) : Prop where
  src    : p.src = p0.src
  srcLen : p.srcLen = g.srcLen
  dstLen : p.dstLen = g.dstLen
  wf     : memWfFrom 0 hi p.dst = true
  hit    : ∀ i b, i < g.h → b < 4 * g.w → done i b → memRead p.dst (g.dstRow i + b) = val i b
  wr     : ∀ a, a ∈ p.writes ↔ ∃ i b, i < g.h ∧ b < 4 * g.w ∧ done i b ∧ a = g.dstRow i + b
  miss   : ∀ a, a ∉ p.writes → memRead p.dst a = memRead p0.dst a
  rdm    : ∀ a, a ∈ p.reads ↔ rd a
  nr     : p.reads.length = nr
  nw     : p.writes.length = nw

variable {g : Geom} {hi : Nat} {val : Nat → Nat → Byte} {p0 p : Ports} {done done' : Nat → Nat → Prop}
  {rd rd' : Nat → Prop} {nr nr' nw nw' : Nat}

theorem Painted.congr (h : Painted g hi val p0 p done rd nr nw)
    (hd : ∀ i b, i < g.h → b < 4 * g.w → (done i b ↔ done' i b)) (hr : ∀ a, rd a ↔ rd' a) (hn : nr = nr')
    (hw : nw = nw') : Painted g hi val p0 p done' rd' nr' nw' where
  src := h.src
  srcLen := h.srcLen
  dstLen := h.dstLen
  wf := h.wf
  hit i b hi' hb hd' := h.hit i b hi' hb ((hd i b hi' hb).2 hd')
  wr a := by
    rw [h.wr a]
    constructor
    · rintro ⟨i, b, h1, h2, h3, h4⟩
      exact ⟨i, b, h1, h2, (hd i b h1 h2).1 h3, h4⟩
    · rintro ⟨i, b, h1, h2, h3, h4⟩
      exact ⟨i, b, h1, h2, (hd i b h1 h2).2 h3, h4⟩
  miss := h.miss
  rdm a := (h.rdm a).trans (hr a)
  nr := h.nr.trans hn
  nw := h.nw.trans hw

/-- The ports at the start of a run. -/
theorem Painted.init (h1 : p0.srcLen = g.srcLen) (h2 : p0.dstLen = g.dstLen) (h3 : memWfFrom 0 hi p0.dst = true)
    (h4 : p0.reads = []) (h5 : p0.writes = []) :
    Painted g hi val p0 p0 (fun _ _ => False) (fun _ => False) 0 0 where
  src := rfl
  srcLen := h1
  dstLen := h2
  wf := h3
  hit _ _ _ _ h := h.elim
  wr a := by simp [h5]
  miss _ _ := rfl
  rdm a := by simp [h4]
  nr := by simp [h4]
  nw := by simp [h5]

/-- A read inside the source window. -/
theorem Painted.read (h : Painted g hi val p0 p done rd nr nw) {off : Nat} (ho : off < g.srcLen) :
    ∃ q, srcRead off p = some (memRead p0.src off, q) ∧
      Painted g hi val p0 q done (fun a => rd a ∨ a = off) (nr + 1) nw := by
  refine ⟨{ p with reads := off :: p.reads }, by
    unfold srcRead; rw [if_pos (by rw [h.srcLen]; exact ho)]; simp only [h.src], ?_⟩
  exact
    { src := h.src, srcLen := h.srcLen, dstLen := h.dstLen, wf := h.wf, hit := h.hit, wr := h.wr, miss := h.miss
      rdm := fun a => by simp only [List.mem_cons, h.rdm a]; exact or_comm
      nr := by simp [h.nr]
      nw := h.nw }

/-- A write of an active destination byte. -/
theorem Painted.write (ok : g.Ok) (hhi : g.dstLen ≤ hi) (h : Painted g hi val p0 p done rd nr nw) {off i b : Nat}
    {v : Byte} (hi' : i < g.h) (hb : b < 4 * g.w) (ho : off = g.dstRow i + b) (hv : v = val i b) :
    ∃ q, dstWrite off v p = some q ∧
      Painted g hi val p0 q (fun i' b' => done i' b' ∨ (i' = i ∧ b' = b)) rd nr (nw + 1) := by
  have hlt : off < g.dstLen := ho ▸ g.dstRow_add_lt ok hi' hb
  refine ⟨_, by unfold dstWrite; rw [if_pos (by rw [h.dstLen]; exact hlt)], ?_⟩
  refine
    { src := h.src, srcLen := h.srcLen, dstLen := h.dstLen
      wf := memWfFrom_memWrite h.wf v (Nat.zero_le _) (lt_of_lt_of_le hlt hhi)
      hit := ?_, wr := ?_, miss := ?_, rdm := h.rdm, nr := h.nr, nw := by simp [h.nw] }
  · intro i' b' h1 h2 hd
    by_cases he : g.dstRow i' + b' = off
    · obtain ⟨rfl, rfl⟩ := g.dstRow_inj ok h1 hi' h2 hb (he.trans ho)
      rw [he, memRead_memWrite_self h.wf, hv]
    · rw [memRead_memWrite_ne _ _ he]
      rcases hd with hd | ⟨rfl, rfl⟩
      · exact h.hit i' b' h1 h2 hd
      · exact absurd ho.symm he
  · intro a
    simp only [List.mem_cons, h.wr a]
    constructor
    · rintro (rfl | ⟨i', b', h1, h2, h3, h4⟩)
      · exact ⟨i, b, hi', hb, .inr ⟨rfl, rfl⟩, ho⟩
      · exact ⟨i', b', h1, h2, .inl h3, h4⟩
    · rintro ⟨i', b', h1, h2, h3 | ⟨rfl, rfl⟩, h4⟩
      · exact .inr ⟨i', b', h1, h2, h3, h4⟩
      · exact .inl (h4.trans ho.symm)
  · intro a ha
    simp only [List.mem_cons, not_or] at ha
    rw [memRead_memWrite_ne _ _ ha.1]
    exact h.miss a ha.2

/-- A pixel written by PutPixel (42_kernels.md R146). -/
theorem Painted.putPixel (ok : g.Ok) (hhi : g.dstLen ≤ hi) (h : Painted g hi val p0 p done rd nr nw) {off i x : Nat}
    {c : Rgb} (hi' : i < g.h) (hx : x < g.w) (ho : off = g.dstRow i + 4 * x) (hb : c.b = val i (4 * x))
    (hg : c.g = val i (4 * x + 1)) (hr : c.r = val i (4 * x + 2)) (hz : 0#8 = val i (4 * x + 3)) :
    ∃ q, Machine.putPixel off c p = some q ∧
      Painted g hi val p0 q (fun i' b' => done i' b' ∨ (i' = i ∧ 4 * x ≤ b' ∧ b' < 4 * x + 4)) rd nr (nw + 4) := by
  obtain ⟨q1, e1, h1⟩ := h.write ok hhi (off := off + 0) hi' (b := 4 * x) (by omega) (by omega) hb
  obtain ⟨q2, e2, h2⟩ := h1.write ok hhi (off := off + 1) hi' (b := 4 * x + 1) (by omega) (by omega) hg
  obtain ⟨q3, e3, h3⟩ := h2.write ok hhi (off := off + 2) hi' (b := 4 * x + 2) (by omega) (by omega) hr
  obtain ⟨q4, e4, h4⟩ := h3.write ok hhi (off := off + 3) hi' (b := 4 * x + 3) (by omega) (by omega) hz
  refine ⟨q4, ?_, h4.congr (fun i' b' _ _ => ?_) (fun _ => Iff.rfl) rfl rfl⟩
  · simp only [Machine.putPixel, e1, e2, e3, e4, Option.bind_eq_bind, Option.bind_some]
  · constructor
    · rintro ((((hd | ⟨_, _⟩) | ⟨_, _⟩) | ⟨_, _⟩) | ⟨_, _⟩)
      · exact .inl hd
      all_goals exact .inr ⟨by omega, by omega, by omega⟩
    · rintro (hd | ⟨_, _, _⟩)
      · exact .inl (.inl (.inl (.inl hd)))
      · by_cases b' = 4 * x
        · exact .inl (.inl (.inl (.inr ⟨by omega, by omega⟩)))
        by_cases b' = 4 * x + 1
        · exact .inl (.inl (.inr ⟨by omega, by omega⟩))
        by_cases b' = 4 * x + 2
        · exact .inl (.inr ⟨by omega, by omega⟩)
        · exact .inr ⟨by omega, by omega⟩

/-- Rows before `k` whole, and in row `k` the bytes below `c`. -/
def Before (k c i b : Nat) : Prop := i < k ∨ (i = k ∧ b < c)

/-- The offsets of the first `n` bytes of the source rows before `k`, and of the first `c` bytes of row `k`. -/
def SrcBefore (g : Geom) (n k c a : Nat) : Prop :=
  ∃ i b, i < g.h ∧ b < n ∧ (i < k ∨ (i = k ∧ b < c)) ∧ a = g.srcRow i + b

theorem srcBefore_zero (n a : Nat) : SrcBefore g n 0 0 a ↔ False := by
  constructor
  · rintro ⟨i, b, _, _, _ | ⟨_, _⟩, _⟩ <;> omega
  · exact False.elim

theorem srcBefore_row (n k a : Nat) : SrcBefore g n k n a ↔ SrcBefore g n (k + 1) 0 a := by
  constructor
  · rintro ⟨i, b, h1, h2, h3, h4⟩
    exact ⟨i, b, h1, h2, by omega, h4⟩
  · rintro ⟨i, b, h1, h2, h3, h4⟩
    exact ⟨i, b, h1, h2, by omega, h4⟩

theorem srcBefore_succ {n k c : Nat} (hk : k < g.h) (hc : c < n) (a : Nat) :
    SrcBefore g n k c a ∨ a = g.srcRow k + c ↔ SrcBefore g n k (c + 1) a := by
  constructor
  · rintro (⟨i, b, h1, h2, h3, h4⟩ | rfl)
    · exact ⟨i, b, h1, h2, by omega, h4⟩
    · exact ⟨k, c, hk, hc, by omega, rfl⟩
  · rintro ⟨i, b, h1, h2, h3, h4⟩
    by_cases he : i = k ∧ b = c
    · obtain ⟨rfl, rfl⟩ := he
      exact .inr h4
    · exact .inl ⟨i, b, h1, h2, by omega, h4⟩

/-- The active source offsets of a packed format (20_memory.md R56, R59). -/
def PackedActive (g : Geom) (n a : Nat) : Prop := ∃ i b, i < g.h ∧ b < n ∧ a = g.srcRow i + b

theorem srcBefore_end (n a : Nat) : SrcBefore g n g.h 0 a ↔ PackedActive g n a := by
  constructor
  · rintro ⟨i, b, h1, h2, _, h4⟩
    exact ⟨i, b, h1, h2, h4⟩
  · rintro ⟨i, b, h1, h2, h4⟩
    exact ⟨i, b, h1, h2, .inl h1, h4⟩

/-- The loop over the rows of a packed kernel. -/
theorem rows_spec {body : Nat → Ports → Option Ports} (n : Nat)
    (h0 : Painted g hi val p0 p (fun _ _ => False) (fun _ => False) 0 0)
    (hrow : ∀ k, k < g.h → ∀ q, Painted g hi val p0 q (Before k 0) (SrcBefore g n k 0) (n * k) (4 * g.w * k) →
      ∃ q', body k q = some q' ∧
        Painted g hi val p0 q' (Before k (4 * g.w)) (SrcBefore g n k n) (n * k + n) (4 * g.w * k + 4 * g.w)) :
    ∃ q, forUp g.h body p = some q ∧
      Painted g hi val p0 q (fun _ _ => True) (PackedActive g n) (n * g.h) (4 * g.w * g.h) := by
  obtain ⟨q, hq, hp⟩ := forUp_spec
    (fun k q => Painted g hi val p0 q (Before k 0) (SrcBefore g n k 0) (n * k) (4 * g.w * k))
    (h0.congr (fun i b _ _ => by simp [Before]) (fun a => (srcBefore_zero n a).symm) (by simp) (by simp))
    (fun k hk q hp => by
      obtain ⟨q', hq', hp'⟩ := hrow k hk q hp
      refine ⟨q', hq', hp'.congr (fun i b _ hb => ?_) (fun a => srcBefore_row n k a) (by ring) (by ring)⟩
      unfold Before; omega)
  exact ⟨q, hq, hp.congr (fun i b h _ => by simp [Before, h]) (fun a => srcBefore_end n a) rfl rfl⟩

/-- The passthrough copy (42_kernels.md R150, R153). -/
theorem kernelPassthrough_spec (ok : g.Ok) (hk : g.kernel = .passthrough) (hhi : g.dstLen ≤ hi)
    (h0 : Painted g hi (fun i b => memRead p0.src (g.srcRow i + b)) p0 p (fun _ _ => False) (fun _ => False) 0 0) :
    ∃ q, kernelPassthrough g p = some q ∧
      Painted g hi (fun i b => memRead p0.src (g.srcRow i + b)) p0 q (fun _ _ => True)
        (PackedActive g (4 * g.w)) (4 * g.w * g.h) (4 * g.w * g.h) := by
  have hact : g.srcActive = 4 * g.w := by unfold Geom.srcActive; rw [hk]
  refine rows_spec (4 * g.w) h0 fun k hk q hq => ?_
  obtain ⟨q', hq', hp'⟩ := forUp_spec (n := 4 * g.w) (p := q)
    (body := fun b p => do
      let (v, p) ← srcRead (g.srcRow k + b) p
      dstWrite (g.dstRow k + b) v p)
    (fun c q => Painted g hi (fun i b => memRead p0.src (g.srcRow i + b)) p0 q (Before k c)
      (SrcBefore g (4 * g.w) k c) (4 * g.w * k + c) (4 * g.w * k + c)) hq
    (fun c hc q hq => by
      obtain ⟨q1, e1, h1⟩ := hq.read (off := g.srcRow k + c) (g.srcRow_add_lt ok hk (by omega))
      obtain ⟨q2, e2, h2⟩ := h1.write ok hhi hk hc rfl rfl
      refine ⟨q2, ?_, h2.congr (fun i b _ _ => ?_) (fun a => srcBefore_succ hk hc a) (by ring) (by ring)⟩
      · simp only [e1, e2, Option.bind_eq_bind, Option.bind_some]
      · unfold Before; omega)
  exact ⟨q', hq', hp'⟩

/-- What byte b of image row i of the destination becomes under RGB24 widening (42_kernels.md R152): B, G, R, 0. -/
def rgb24Byte (g : Geom) (m : Memory) (i b : Nat) : Byte :=
  if b % 4 = 0 then memRead m (g.srcRow i + 3 * (b / 4) + 2)
  else if b % 4 = 1 then memRead m (g.srcRow i + 3 * (b / 4) + 1)
  else if b % 4 = 2 then memRead m (g.srcRow i + 3 * (b / 4))
  else 0#8

/-- RGB24 widening (42_kernels.md R152). -/
theorem kernelRgb24_spec (ok : g.Ok) (hk : g.kernel = .rgb24) (hhi : g.dstLen ≤ hi)
    (h0 : Painted g hi (rgb24Byte g p0.src) p0 p (fun _ _ => False) (fun _ => False) 0 0) :
    ∃ q, kernelRgb24 g p = some q ∧
      Painted g hi (rgb24Byte g p0.src) p0 q (fun _ _ => True)
        (PackedActive g (3 * g.w)) (3 * g.w * g.h) (4 * g.w * g.h) := by
  have hact : g.srcActive = 3 * g.w := by unfold Geom.srcActive; rw [hk]
  refine rows_spec (3 * g.w) h0 fun k hk q hq => ?_
  obtain ⟨q', hq', hp'⟩ := forUp_spec (n := g.w) (p := q)
    (body := fun x p => do
      let (r, p) ← srcRead (g.srcRow k + 3 * x + 0) p
      let (gr, p) ← srcRead (g.srcRow k + 3 * x + 1) p
      let (b, p) ← srcRead (g.srcRow k + 3 * x + 2) p
      putPixel (g.dstRow k + 4 * x) ⟨r, gr, b⟩ p)
    (fun x q => Painted g hi (rgb24Byte g p0.src) p0 q (Before k (4 * x))
      (SrcBefore g (3 * g.w) k (3 * x)) (3 * g.w * k + 3 * x) (4 * g.w * k + 4 * x)) hq
    (fun x hx q hq => by
      obtain ⟨q1, e1, h1⟩ := hq.read (off := g.srcRow k + 3 * x + 0)
        (by have := g.srcRow_add_lt ok hk (b := 3 * x) (by omega); omega)
      obtain ⟨q2, e2, h2⟩ := h1.read (off := g.srcRow k + 3 * x + 1)
        (by have := g.srcRow_add_lt ok hk (b := 3 * x + 1) (by omega); omega)
      obtain ⟨q3, e3, h3⟩ := h2.read (off := g.srcRow k + 3 * x + 2)
        (by have := g.srcRow_add_lt ok hk (b := 3 * x + 2) (by omega); omega)
      obtain ⟨q4, e4, h4⟩ := h3.putPixel ok hhi hk hx rfl
        (c := ⟨memRead p0.src (g.srcRow k + 3 * x + 0), memRead p0.src (g.srcRow k + 3 * x + 1),
          memRead p0.src (g.srcRow k + 3 * x + 2)⟩)
        (by simp [rgb24Byte])
        (by simp [rgb24Byte, show (4 * x + 1) % 4 = 1 by omega, show (4 * x + 1) / 4 = x by omega])
        (by simp [rgb24Byte, show (4 * x + 2) % 4 = 2 by omega, show (4 * x + 2) / 4 = x by omega])
        (by simp [rgb24Byte, show (4 * x + 3) % 4 = 3 by omega])
      refine ⟨q4, ?_, h4.congr (fun i b _ _ => ?_) (fun a => ?_) (by ring) (by ring)⟩
      · simp only [e1, e2, e3, e4, Option.bind_eq_bind, Option.bind_some]
      · unfold Before; omega
      · rw [show 3 * (x + 1) = 3 * x + 1 + 1 + 1 by omega, ← srcBefore_succ hk (by omega),
          ← srcBefore_succ hk (by omega), ← srcBefore_succ hk (by omega)]
        rfl)
  refine ⟨q', hq', hp'⟩

/-- The byte of a pixel in memory order B, G, R, 0 (42_kernels.md R146). -/
def pixelByte (c : Rgb) (k : Nat) : Byte :=
  if k = 0 then c.b else if k = 1 then c.g else if k = 2 then c.r else 0#8

/-- The colour of pixel x of image row i under 4:2:2 decode (42_kernels.md R154): luma at byte 0 or 2 of the pair,
U at byte 1, V at byte 3. -/
def yuv422Pixel (g : Geom) (m : Memory) (i x : Nat) : Rgb :=
  ycc (memRead m (g.srcRow i + 4 * (x / 2) + 2 * (x % 2))) (memRead m (g.srcRow i + 4 * (x / 2) + 1))
    (memRead m (g.srcRow i + 4 * (x / 2) + 3))

/-- The colour of pixel x of image row i under 4:2:0 decode (42_kernels.md R157, R158). -/
def yuv420Pixel (g : Geom) (m : Memory) (i x : Nat) : Rgb :=
  ycc (memRead m (g.srcRow i + x)) (memRead m (g.chromaRow (i / 2) + 2 * (x / 2)))
    (memRead m (g.chromaRow (i / 2) + 2 * (x / 2) + 1))

/-- A destination written pixel by pixel. -/
def pixelVal (px : Nat → Nat → Rgb) (i b : Nat) : Byte := pixelByte (px i (b / 4)) (b % 4)

/-- A pixel written where the destination is to hold `px`. -/
theorem Painted.putPixelVal {px : Nat → Nat → Rgb} (ok : g.Ok) (hhi : g.dstLen ≤ hi)
    (h : Painted g hi (pixelVal px) p0 p done rd nr nw) {off i x : Nat} {c : Rgb} (hi' : i < g.h) (hx : x < g.w)
    (ho : off = g.dstRow i + 4 * x) (hc : c = px i x) :
    ∃ q, Machine.putPixel off c p = some q ∧
      Painted g hi (pixelVal px) p0 q (fun i' b' => done i' b' ∨ (i' = i ∧ 4 * x ≤ b' ∧ b' < 4 * x + 4)) rd nr
        (nw + 4) := by
  subst hc
  refine h.putPixel ok hhi hi' hx ho ?_ ?_ ?_ ?_
  · simp [pixelVal, pixelByte]
  · simp [pixelVal, pixelByte, show (4 * x + 1) % 4 = 1 by omega, show (4 * x + 1) / 4 = x by omega]
  · simp [pixelVal, pixelByte, show (4 * x + 2) % 4 = 2 by omega, show (4 * x + 2) / 4 = x by omega]
  · simp [pixelVal, pixelByte, show (4 * x + 3) % 4 = 3 by omega]

/-- Packed 4:2:2 decode (42_kernels.md R154, R155). -/
theorem kernelYuv422_spec (ok : g.Ok) (hk : g.kernel = .yuv422) (hhi : g.dstLen ≤ hi)
    (h0 : Painted g hi (pixelVal (yuv422Pixel g p0.src)) p0 p (fun _ _ => False) (fun _ => False) 0 0) :
    ∃ q, kernelYuv422 g p = some q ∧
      Painted g hi (pixelVal (yuv422Pixel g p0.src)) p0 q (fun _ _ => True)
        (PackedActive g (2 * g.w)) (2 * g.w * g.h) (4 * g.w * g.h) := by
  have hact : g.srcActive = 2 * g.w := by unfold Geom.srcActive; rw [hk]
  have hev := ok.even (.inl hk)
  refine rows_spec (2 * g.w) h0 fun i hi' q hq => ?_
  obtain ⟨q', hq', hp'⟩ := forUp_spec (n := g.w / 2) (p := q)
    (body := fun k p => do
      let (y0, p) ← srcRead (g.srcRow i + 4 * k + 0) p
      let (u, p) ← srcRead (g.srcRow i + 4 * k + 1) p
      let (y1, p) ← srcRead (g.srcRow i + 4 * k + 2) p
      let (v, p) ← srcRead (g.srcRow i + 4 * k + 3) p
      let p ← putPixel (g.dstRow i + 8 * k + 0) (ycc y0 u v) p
      putPixel (g.dstRow i + 8 * k + 4) (ycc y1 u v) p)
    (fun k q => Painted g hi (pixelVal (yuv422Pixel g p0.src)) p0 q (Before i (8 * k))
      (SrcBefore g (2 * g.w) i (4 * k)) (2 * g.w * i + 4 * k) (4 * g.w * i + 8 * k)) hq
    (fun k hkw q hq => by
      obtain ⟨q1, e1, h1⟩ := hq.read (off := g.srcRow i + 4 * k + 0)
        (by have := g.srcRow_add_lt ok hi' (b := 4 * k) (by omega); omega)
      obtain ⟨q2, e2, h2⟩ := h1.read (off := g.srcRow i + 4 * k + 1)
        (by have := g.srcRow_add_lt ok hi' (b := 4 * k + 1) (by omega); omega)
      obtain ⟨q3, e3, h3⟩ := h2.read (off := g.srcRow i + 4 * k + 2)
        (by have := g.srcRow_add_lt ok hi' (b := 4 * k + 2) (by omega); omega)
      obtain ⟨q4, e4, h4⟩ := h3.read (off := g.srcRow i + 4 * k + 3)
        (by have := g.srcRow_add_lt ok hi' (b := 4 * k + 3) (by omega); omega)
      obtain ⟨q5, e5, h5⟩ := h4.putPixelVal ok hhi (off := g.dstRow i + 8 * k + 0) hi' (x := 2 * k) (by omega)
        (by omega)
        (c := ycc (memRead p0.src (g.srcRow i + 4 * k + 0)) (memRead p0.src (g.srcRow i + 4 * k + 1))
          (memRead p0.src (g.srcRow i + 4 * k + 3)))
        (by simp [yuv422Pixel])
      obtain ⟨q6, e6, h6⟩ := h5.putPixelVal ok hhi (off := g.dstRow i + 8 * k + 4) hi' (x := 2 * k + 1) (by omega)
        (by omega)
        (c := ycc (memRead p0.src (g.srcRow i + 4 * k + 2)) (memRead p0.src (g.srcRow i + 4 * k + 1))
          (memRead p0.src (g.srcRow i + 4 * k + 3)))
        (by simp [yuv422Pixel, show (2 * k + 1) / 2 = k by omega, show (2 * k + 1) % 2 = 1 by omega])
      refine ⟨q6, ?_, h6.congr (fun i' b _ _ => ?_) (fun a => ?_) (by ring) (by ring)⟩
      · simp only [e1, e2, e3, e4, e5, e6, Option.bind_eq_bind, Option.bind_some]
      · unfold Before; omega
      · rw [show 4 * (k + 1) = 4 * k + 1 + 1 + 1 + 1 by omega, ← srcBefore_succ hi' (by omega),
          ← srcBefore_succ hi' (by omega), ← srcBefore_succ hi' (by omega), ← srcBefore_succ hi' (by omega)]
        rfl)
  refine ⟨q', hq', hp'.congr (fun i' b _ _ => ?_) (fun a => ?_) (by omega) (by omega)⟩
  · unfold Before; omega
  · rw [show 4 * (g.w / 2) = 2 * g.w by omega]

/-- Row pairs before `j` whole, and in the two rows of pair `j` the bytes below `c`. -/
def PairBefore (j c i b : Nat) : Prop := i < 2 * j ∨ ((i = 2 * j ∨ i = 2 * j + 1) ∧ b < c)

/-- The luma and chroma offsets read before block row `j`, and in it those of the columns below `c`. -/
def PlanarBefore (g : Geom) (j c a : Nat) : Prop :=
  (∃ i b, i < g.h ∧ b < g.w ∧ PairBefore j c i b ∧ a = g.srcRow i + b) ∨
    (∃ i b, i < g.h / 2 ∧ b < g.w ∧ (i < j ∨ (i = j ∧ b < c)) ∧ a = g.chromaRow i + b)

/-- The active source offsets of a 4:2:0 frame: the luma rows and the chroma rows (20_memory.md R56, R59). -/
def PlanarActive (g : Geom) (a : Nat) : Prop :=
  (∃ i b, i < g.h ∧ b < g.w ∧ a = g.srcRow i + b) ∨ (∃ j b, j < g.h / 2 ∧ b < g.w ∧ a = g.chromaRow j + b)

/-- The six reads of a 2x2 block take the offsets read from column `2k` to column `2k + 2`. -/
theorem planarBefore_block {j k : Nat} (hj : j < g.h / 2) (hk : k < g.w / 2) (a : Nat) :
    ((((((PlanarBefore g j (2 * k) a ∨ a = g.srcRow (2 * j) + 2 * k) ∨ a = g.srcRow (2 * j) + 2 * k + 1) ∨
      a = g.srcRow (2 * j + 1) + 2 * k) ∨ a = g.srcRow (2 * j + 1) + 2 * k + 1) ∨ a = g.chromaRow j + 2 * k) ∨
      a = g.chromaRow j + 2 * k + 1) ↔ PlanarBefore g j (2 * (k + 1)) a := by
  constructor
  · rintro (((((((⟨i, b, h1, h2, h3, h4⟩ | ⟨i, b, h1, h2, h3, h4⟩) | h) | h) | h) | h) | h) | h)
    · exact .inl ⟨i, b, h1, h2, by unfold PairBefore at *; omega, h4⟩
    · exact .inr ⟨i, b, h1, h2, by omega, h4⟩
    · exact .inl ⟨2 * j, 2 * k, by omega, by omega, by unfold PairBefore; omega, h⟩
    · exact .inl ⟨2 * j, 2 * k + 1, by omega, by omega, by unfold PairBefore; omega, by omega⟩
    · exact .inl ⟨2 * j + 1, 2 * k, by omega, by omega, by unfold PairBefore; omega, h⟩
    · exact .inl ⟨2 * j + 1, 2 * k + 1, by omega, by omega, by unfold PairBefore; omega, by omega⟩
    · exact .inr ⟨j, 2 * k, hj, by omega, by omega, h⟩
    · exact .inr ⟨j, 2 * k + 1, hj, by omega, by omega, by omega⟩
  · rintro (⟨i, b, h1, h2, h3, h4⟩ | ⟨i, b, h1, h2, h3, h4⟩)
    · by_cases hb : b < 2 * k ∨ i < 2 * j
      · exact .inl (.inl (.inl (.inl (.inl (.inl (.inl ⟨i, b, h1, h2, by unfold PairBefore at *; omega, h4⟩))))))
      · unfold PairBefore at h3
        have hi2 : i = 2 * j ∨ i = 2 * j + 1 := by omega
        have hb2 : b = 2 * k ∨ b = 2 * k + 1 := by omega
        rcases hi2 with rfl | rfl <;> rcases hb2 with rfl | rfl
        · exact .inl (.inl (.inl (.inl (.inl (.inr h4)))))
        · exact .inl (.inl (.inl (.inl (.inr (by omega)))))
        · exact .inl (.inl (.inl (.inr h4)))
        · exact .inl (.inl (.inr (by omega)))
    · by_cases hb : b < 2 * k ∨ i < j
      · exact .inl (.inl (.inl (.inl (.inl (.inl (.inr ⟨i, b, h1, h2, by omega, h4⟩))))))
      · have hi2 : i = j := by omega
        have hb2 : b = 2 * k ∨ b = 2 * k + 1 := by omega
        subst hi2
        rcases hb2 with rfl | rfl
        · exact .inl (.inr h4)
        · exact .inr (by omega)

/-- Planar 4:2:0 decode (42_kernels.md R157, R158). -/
theorem kernelYuv420_spec (ok : g.Ok) (hk : g.kernel = .yuv420) (hhi : g.dstLen ≤ hi)
    (h0 : Painted g hi (pixelVal (yuv420Pixel g p0.src)) p0 p (fun _ _ => False) (fun _ => False) 0 0) :
    ∃ q, kernelYuv420 g p = some q ∧
      Painted g hi (pixelVal (yuv420Pixel g p0.src)) p0 q (fun _ _ => True) (PlanarActive g)
        (3 * g.w * (g.h / 2)) (8 * g.w * (g.h / 2)) := by
  have hact : g.srcActive = g.w := by unfold Geom.srcActive; rw [hk]
  have hev := ok.even (.inr hk)
  have hevh := ok.evenH hk
  obtain ⟨q, hq, hp⟩ := forUp_spec (n := g.h / 2) (p := p)
    (body := fun j => forUp (g.w / 2) fun k p => do
      let (y0, p) ← srcRead (g.srcRow (2 * j) + 2 * k) p
      let (y1, p) ← srcRead (g.srcRow (2 * j) + 2 * k + 1) p
      let (y2, p) ← srcRead (g.srcRow (2 * j + 1) + 2 * k) p
      let (y3, p) ← srcRead (g.srcRow (2 * j + 1) + 2 * k + 1) p
      let (cb, p) ← srcRead (g.chromaRow j + 2 * k) p
      let (cr, p) ← srcRead (g.chromaRow j + 2 * k + 1) p
      let p ← putPixel (g.dstRow (2 * j) + 8 * k + 0) (ycc y0 cb cr) p
      let p ← putPixel (g.dstRow (2 * j) + 8 * k + 4) (ycc y1 cb cr) p
      let p ← putPixel (g.dstRow (2 * j + 1) + 8 * k + 0) (ycc y2 cb cr) p
      putPixel (g.dstRow (2 * j + 1) + 8 * k + 4) (ycc y3 cb cr) p)
    (fun j q => Painted g hi (pixelVal (yuv420Pixel g p0.src)) p0 q (PairBefore j 0) (PlanarBefore g j 0)
      (3 * g.w * j) (8 * g.w * j))
    (h0.congr (fun i b _ _ => by simp [PairBefore])
      (fun a => ⟨False.elim, by
        rintro (⟨i, b, _, _, h, _⟩ | ⟨i, b, _, _, h, _⟩)
        · unfold PairBefore at h; omega
        · omega⟩) (by simp) (by simp))
    (fun j hj q hq => by
      obtain ⟨q', hq', hp'⟩ := forUp_spec (n := g.w / 2) (p := q)
        (body := fun k p => do
          let (y0, p) ← srcRead (g.srcRow (2 * j) + 2 * k) p
          let (y1, p) ← srcRead (g.srcRow (2 * j) + 2 * k + 1) p
          let (y2, p) ← srcRead (g.srcRow (2 * j + 1) + 2 * k) p
          let (y3, p) ← srcRead (g.srcRow (2 * j + 1) + 2 * k + 1) p
          let (cb, p) ← srcRead (g.chromaRow j + 2 * k) p
          let (cr, p) ← srcRead (g.chromaRow j + 2 * k + 1) p
          let p ← putPixel (g.dstRow (2 * j) + 8 * k + 0) (ycc y0 cb cr) p
          let p ← putPixel (g.dstRow (2 * j) + 8 * k + 4) (ycc y1 cb cr) p
          let p ← putPixel (g.dstRow (2 * j + 1) + 8 * k + 0) (ycc y2 cb cr) p
          putPixel (g.dstRow (2 * j + 1) + 8 * k + 4) (ycc y3 cb cr) p)
        (fun k q => Painted g hi (pixelVal (yuv420Pixel g p0.src)) p0 q (PairBefore j (8 * k))
          (PlanarBefore g j (2 * k)) (3 * g.w * j + 6 * k) (8 * g.w * j + 16 * k))
        (hq.congr (fun _ _ _ _ => by simp) (fun a => by simp) (by simp) (by simp))
        (fun k hkw q hq => by
          have l0 := fun b (hb : b < g.w) => g.srcRow_add_lt ok (i := 2 * j) (b := b) (by omega) (by omega)
          have l1 := fun b (hb : b < g.w) => g.srcRow_add_lt ok (i := 2 * j + 1) (b := b) (by omega) (by omega)
          have lc := fun b (hb : b < g.w) => g.chromaRow_add_lt ok hk (j := j) (b := b) (by omega) hb
          obtain ⟨q1, e1, h1⟩ := hq.read (off := g.srcRow (2 * j) + 2 * k) (l0 _ (by omega))
          obtain ⟨q2, e2, h2⟩ := h1.read (off := g.srcRow (2 * j) + 2 * k + 1) (l0 (2 * k + 1) (by omega))
          obtain ⟨q3, e3, h3⟩ := h2.read (off := g.srcRow (2 * j + 1) + 2 * k) (l1 _ (by omega))
          obtain ⟨q4, e4, h4⟩ := h3.read (off := g.srcRow (2 * j + 1) + 2 * k + 1) (l1 (2 * k + 1) (by omega))
          obtain ⟨q5, e5, h5⟩ := h4.read (off := g.chromaRow j + 2 * k) (lc _ (by omega))
          obtain ⟨q6, e6, h6⟩ := h5.read (off := g.chromaRow j + 2 * k + 1) (lc (2 * k + 1) (by omega))
          have d0 : 2 * j / 2 = j := by omega
          have d1 : (2 * j + 1) / 2 = j := by omega
          have k0 : 2 * k / 2 = k := by omega
          have k1 : (2 * k + 1) / 2 = k := by omega
          obtain ⟨q7, e7, h7⟩ := h6.putPixelVal ok hhi (off := g.dstRow (2 * j) + 8 * k + 0) (i := 2 * j) (by omega)
            (x := 2 * k) (by omega) (by omega)
            (c := ycc (memRead p0.src (g.srcRow (2 * j) + 2 * k)) (memRead p0.src (g.chromaRow j + 2 * k))
              (memRead p0.src (g.chromaRow j + 2 * k + 1)))
            (by simp [yuv420Pixel])
          obtain ⟨q8, e8, h8⟩ := h7.putPixelVal ok hhi (off := g.dstRow (2 * j) + 8 * k + 4) (i := 2 * j) (by omega)
            (x := 2 * k + 1) (by omega) (by omega)
            (c := ycc (memRead p0.src (g.srcRow (2 * j) + 2 * k + 1)) (memRead p0.src (g.chromaRow j + 2 * k))
              (memRead p0.src (g.chromaRow j + 2 * k + 1)))
            (by simp [yuv420Pixel, k1, Nat.add_assoc])
          obtain ⟨q9, e9, h9⟩ := h8.putPixelVal ok hhi (off := g.dstRow (2 * j + 1) + 8 * k + 0) (i := 2 * j + 1)
            (by omega) (x := 2 * k) (by omega) (by omega)
            (c := ycc (memRead p0.src (g.srcRow (2 * j + 1) + 2 * k)) (memRead p0.src (g.chromaRow j + 2 * k))
              (memRead p0.src (g.chromaRow j + 2 * k + 1)))
            (by simp [yuv420Pixel, d1])
          obtain ⟨q10, e10, h10⟩ := h9.putPixelVal ok hhi (off := g.dstRow (2 * j + 1) + 8 * k + 4) (i := 2 * j + 1)
            (by omega) (x := 2 * k + 1) (by omega) (by omega)
            (c := ycc (memRead p0.src (g.srcRow (2 * j + 1) + 2 * k + 1)) (memRead p0.src (g.chromaRow j + 2 * k))
              (memRead p0.src (g.chromaRow j + 2 * k + 1)))
            (by simp [yuv420Pixel, d1, k1, Nat.add_assoc])
          refine ⟨q10, ?_, h10.congr (fun i' b _ _ => ?_) (fun a => planarBefore_block hj hkw a) (by ring) (by ring)⟩
          · simp only [e1, e2, e3, e4, e5, e6, e7, e8, e9, e10, Option.bind_eq_bind, Option.bind_some]
          · unfold PairBefore; omega)
      refine ⟨q', hq', hp'.congr (fun i b _ _ => ?_) (fun a => ?_) ?_ ?_⟩
      · unfold PairBefore; omega
      · rw [show 2 * (g.w / 2) = g.w by omega]
        constructor
        · rintro (⟨i, b, h1, h2, h3, h4⟩ | ⟨i, b, h1, h2, h3, h4⟩)
          · exact .inl ⟨i, b, h1, h2, by unfold PairBefore at *; omega, h4⟩
          · exact .inr ⟨i, b, h1, h2, by omega, h4⟩
        · rintro (⟨i, b, h1, h2, h3, h4⟩ | ⟨i, b, h1, h2, h3, h4⟩)
          · exact .inl ⟨i, b, h1, h2, by unfold PairBefore at *; omega, h4⟩
          · exact .inr ⟨i, b, h1, h2, by omega, h4⟩
      · rw [show 6 * (g.w / 2) = 3 * g.w by omega]; ring
      · rw [show 16 * (g.w / 2) = 8 * g.w by omega]; ring)
  refine ⟨q, hq, hp.congr (fun i b hi' _ => ?_) (fun a => ?_) rfl rfl⟩
  · unfold PairBefore; simp; omega
  · constructor
    · rintro (⟨i, b, h1, h2, _, h4⟩ | ⟨i, b, h1, h2, _, h4⟩)
      · exact .inl ⟨i, b, h1, h2, h4⟩
      · exact .inr ⟨i, b, h1, h2, h4⟩
    · rintro (⟨i, b, h1, h2, h4⟩ | ⟨i, b, h1, h2, h4⟩)
      · exact .inl ⟨i, b, h1, h2, by unfold PairBefore; omega, h4⟩
      · exact .inr ⟨i, b, h1, h2, .inl h1, h4⟩

end Sys2Proof.Machine
end

