-- ==== Sys2Proof/Laws/Registry.lean ====
section
/-! SUPPORT. The registry's entries, one by one (10_state.md R33), and what the stride resolver answers
(41_stride_resolver.md R121). -/

namespace Sys2Proof.Machine

/-- A registered identifier is one of the four, with its own entry (10_state.md R33). -/
theorem entryOf_cases {id : Word} {e : RegistryEntry} (h : entryOf id = some e) :
    (id = fmtRgb32 ∧ e = ⟨fmtRgb32, 4, .passthrough⟩) ∨ (id = fmtRgb24 ∧ e = ⟨fmtRgb24, 3, .rgb24⟩) ∨
      (id = fmtYuy2 ∧ e = ⟨fmtYuy2, 2, .yuv422⟩) ∨ (id = fmtNv12 ∧ e = ⟨fmtNv12, 1, .yuv420⟩) := by
  have hm := List.mem_of_find?_eq_some h
  have hp := List.find?_some h
  simp only [beq_iff_eq] at hp
  simp only [rom, List.mem_cons, List.not_mem_nil, or_false] at hm
  rcases hm with rfl | rfl | rfl | rfl
  · exact .inl ⟨hp.symm, rfl⟩
  · exact .inr (.inl ⟨hp.symm, rfl⟩)
  · exact .inr (.inr (.inl ⟨hp.symm, rfl⟩))
  · exact .inr (.inr (.inr ⟨hp.symm, rfl⟩))

theorem entryOf_eq_none {id : Word} : entryOf id = none ↔ registered id = false := by
  simp [entryOf, registered, List.find?_eq_none, List.any_eq_false]

theorem registered_iff {id : Word} : registered id = true ↔ ∃ e, entryOf id = some e := by
  rw [← Option.isSome_iff_exists, ← Bool.not_eq_false, ← entryOf_eq_none, Option.isSome_iff_ne_none, ne_eq]

/-- What the resolver can answer (41_stride_resolver.md R121). -/
theorem resolveStride_some {cfg : Config} {id : Word} {w : Nat} {x r : Int} (h : resolveStride cfg id w x = some r) :
    ∃ e, entryOf id = some e ∧ w ≠ 0 ∧ w ≤ cfg.maxDim ∧ (subsampled id = true → even w = true) ∧
      r = if x ≠ 0 then x else (e.bpp * w : Int) := by
  unfold resolveStride at h
  split at h
  · cases h
  · rename_i e he
    refine ⟨e, he, ?_⟩
    split at h
    · cases h
    split at h
    · cases h
    split at h
    · cases h
    rename_i h1 h2 h3
    refine ⟨h1, by omega, fun hs => ?_, ?_⟩
    · simpa [hs] using h3
    · split at h
      · rename_i hx
        cases h
        rw [if_pos hx]
      · rename_i hx
        cases h
        rw [if_neg hx]

theorem bpp_le {id : Word} {e : RegistryEntry} (h : entryOf id = some e) : 1 ≤ e.bpp ∧ e.bpp ≤ 4 := by
  rcases entryOf_cases h with ⟨_, rfl⟩ | ⟨_, rfl⟩ | ⟨_, rfl⟩ | ⟨_, rfl⟩ <;> decide

end Sys2Proof.Machine
end

