-- ==== Sys2Proof/Laws/State.lean ====
section
/-! SUPPORT. What each update of the state leaves in each field, one lemma a field, so that no proof unfolds a record
update. -/

namespace Sys2Proof.Machine

variable (s : State)

/-! ### A CMD write that issues a command (10_state.md R34). -/

@[simp] theorem State.issue_cfg (w : Word) : (s.issue w).cfg = s.cfg := rfl
@[simp] theorem State.issue_cmd (w : Word) : (s.issue w).cmd = w := rfl
@[simp] theorem State.issue_code (w : Word) : (s.issue w).code = s.code := rfl
@[simp] theorem State.issue_busy (w : Word) : (s.issue w).busy = true := rfl
@[simp] theorem State.issue_result0 (w : Word) : (s.issue w).result0 = s.result0 := rfl
@[simp] theorem State.issue_args (w : Word) : (s.issue w).args = s.args := rfl
@[simp] theorem State.issue_latched (w : Word) : (s.issue w).latched = s.args := rfl
@[simp] theorem State.issue_session (w : Word) : (s.issue w).session = s.session := rfl
@[simp] theorem State.issue_src (w : Word) : (s.issue w).src = s.src := rfl
@[simp] theorem State.issue_dst (w : Word) : (s.issue w).dst = s.dst := rfl
@[simp] theorem State.issue_delay (w : Word) : (s.issue w).delay = Config.latency s.draws := rfl
@[simp] theorem State.issue_disturbed (w : Word) : (s.issue w).disturbed = false := rfl
@[simp] theorem State.issue_readData (w : Word) : (s.issue w).readData = s.readData := rfl
@[simp] theorem State.issue_input (w : Word) : (s.issue w).input = s.input := rfl
@[simp] theorem State.issue_draws (w : Word) : (s.issue w).draws = s.draws + 1 := rfl

/-! ### A command issued and about to complete. -/

@[simp] theorem State.place_cfg (w : Word) : (s.place w).cfg = s.cfg := rfl
@[simp] theorem State.place_cmd (w : Word) : (s.place w).cmd = w := rfl
@[simp] theorem State.place_code (w : Word) : (s.place w).code = s.code := rfl
@[simp] theorem State.place_busy (w : Word) : (s.place w).busy = true := rfl
@[simp] theorem State.place_result0 (w : Word) : (s.place w).result0 = s.result0 := rfl
@[simp] theorem State.place_args (w : Word) : (s.place w).args = s.args := rfl
@[simp] theorem State.place_latched (w : Word) : (s.place w).latched = s.args := rfl
@[simp] theorem State.place_session (w : Word) : (s.place w).session = s.session := rfl
@[simp] theorem State.place_src (w : Word) : (s.place w).src = s.src := rfl
@[simp] theorem State.place_dst (w : Word) : (s.place w).dst = s.dst := rfl
@[simp] theorem State.place_delay (w : Word) : (s.place w).delay = 0 := rfl
@[simp] theorem State.place_disturbed (w : Word) : (s.place w).disturbed = false := rfl
@[simp] theorem State.place_readData (w : Word) : (s.place w).readData = s.readData := rfl
@[simp] theorem State.place_input (w : Word) : (s.place w).input = s.input := rfl
@[simp] theorem State.place_draws (w : Word) : (s.place w).draws = s.draws := rfl

/-! ### `complete(r)` (60_exceptions.md R202). -/

@[simp] theorem State.complete_cfg (r : Int) : (s.complete r).cfg = s.cfg := rfl
@[simp] theorem State.complete_cmd (r : Int) : (s.complete r).cmd = s.cmd := rfl
@[simp] theorem State.complete_code (r : Int) : (s.complete r).code = .ok := rfl
@[simp] theorem State.complete_busy (r : Int) : (s.complete r).busy = false := rfl
@[simp] theorem State.complete_result0 (r : Int) : (s.complete r).result0 = low32 r := rfl
@[simp] theorem State.complete_args (r : Int) : (s.complete r).args = s.args := rfl
@[simp] theorem State.complete_latched (r : Int) : (s.complete r).latched = s.latched := rfl
@[simp] theorem State.complete_session (r : Int) : (s.complete r).session = s.session := rfl
@[simp] theorem State.complete_src (r : Int) : (s.complete r).src = s.src := rfl
@[simp] theorem State.complete_dst (r : Int) : (s.complete r).dst = s.dst := rfl
@[simp] theorem State.complete_delay (r : Int) : (s.complete r).delay = s.delay := rfl
@[simp] theorem State.complete_disturbed (r : Int) : (s.complete r).disturbed = s.disturbed := rfl
@[simp] theorem State.complete_readData (r : Int) : (s.complete r).readData = s.readData := rfl
@[simp] theorem State.complete_input (r : Int) : (s.complete r).input = s.input := rfl
@[simp] theorem State.complete_draws (r : Int) : (s.complete r).draws = s.draws := rfl

/-! ### `raise X` (60_exceptions.md R203). -/

@[simp] theorem State.raise_cfg (x : Status) : (s.raise x).cfg = s.cfg := rfl
@[simp] theorem State.raise_cmd (x : Status) : (s.raise x).cmd = s.cmd := rfl
@[simp] theorem State.raise_code (x : Status) : (s.raise x).code = x := rfl
@[simp] theorem State.raise_busy (x : Status) : (s.raise x).busy = false := rfl
@[simp] theorem State.raise_result0 (x : Status) : (s.raise x).result0 = 0#32 := rfl
@[simp] theorem State.raise_args (x : Status) : (s.raise x).args = s.args := rfl
@[simp] theorem State.raise_latched (x : Status) : (s.raise x).latched = s.latched := rfl
@[simp] theorem State.raise_session (x : Status) : (s.raise x).session = s.session := rfl
@[simp] theorem State.raise_src (x : Status) : (s.raise x).src = s.src := rfl
@[simp] theorem State.raise_dst (x : Status) : (s.raise x).dst = s.dst := rfl
@[simp] theorem State.raise_delay (x : Status) : (s.raise x).delay = s.delay := rfl
@[simp] theorem State.raise_disturbed (x : Status) : (s.raise x).disturbed = s.disturbed := rfl
@[simp] theorem State.raise_readData (x : Status) : (s.raise x).readData = s.readData := rfl
@[simp] theorem State.raise_input (x : Status) : (s.raise x).input = s.input := rfl
@[simp] theorem State.raise_draws (x : Status) : (s.raise x).draws = s.draws := rfl

/-! ### Reset (70_reset_and_hazards.md R231). -/

@[simp] theorem State.hardReset_cfg : s.hardReset.cfg = s.cfg := rfl
@[simp] theorem State.hardReset_cmd : s.hardReset.cmd = 0#32 := rfl
@[simp] theorem State.hardReset_code : s.hardReset.code = .ok := rfl
@[simp] theorem State.hardReset_busy : s.hardReset.busy = false := rfl
@[simp] theorem State.hardReset_result0 : s.hardReset.result0 = 0#32 := rfl
@[simp] theorem State.hardReset_args : s.hardReset.args = Args.reset := rfl
@[simp] theorem State.hardReset_latched : s.hardReset.latched = Args.reset := rfl
@[simp] theorem State.hardReset_session : s.hardReset.session = Session.reset := rfl
@[simp] theorem State.hardReset_src : s.hardReset.src = s.src := rfl
@[simp] theorem State.hardReset_dst : s.hardReset.dst = s.dst := rfl
@[simp] theorem State.hardReset_delay : s.hardReset.delay = 0 := rfl
@[simp] theorem State.hardReset_disturbed : s.hardReset.disturbed = false := rfl
@[simp] theorem State.hardReset_readData : s.hardReset.readData = s.readData := rfl
@[simp] theorem State.hardReset_input : s.hardReset.input = s.input := rfl
@[simp] theorem State.hardReset_draws : s.hardReset.draws = s.draws := rfl

/-! ### New contents of the destination window. -/

@[simp] theorem State.withDst_cfg (m : Memory) : (s.withDst m).cfg = s.cfg := rfl
@[simp] theorem State.withDst_cmd (m : Memory) : (s.withDst m).cmd = s.cmd := rfl
@[simp] theorem State.withDst_code (m : Memory) : (s.withDst m).code = s.code := rfl
@[simp] theorem State.withDst_busy (m : Memory) : (s.withDst m).busy = s.busy := rfl
@[simp] theorem State.withDst_result0 (m : Memory) : (s.withDst m).result0 = s.result0 := rfl
@[simp] theorem State.withDst_args (m : Memory) : (s.withDst m).args = s.args := rfl
@[simp] theorem State.withDst_latched (m : Memory) : (s.withDst m).latched = s.latched := rfl
@[simp] theorem State.withDst_session (m : Memory) : (s.withDst m).session = s.session := rfl
@[simp] theorem State.withDst_src (m : Memory) : (s.withDst m).src = s.src := rfl
@[simp] theorem State.withDst_dst (m : Memory) : (s.withDst m).dst = { s.dst with bytes := m } := rfl
@[simp] theorem State.withDst_delay (m : Memory) : (s.withDst m).delay = s.delay := rfl
@[simp] theorem State.withDst_disturbed (m : Memory) : (s.withDst m).disturbed = s.disturbed := rfl
@[simp] theorem State.withDst_readData (m : Memory) : (s.withDst m).readData = s.readData := rfl
@[simp] theorem State.withDst_input (m : Memory) : (s.withDst m).input = s.input := rfl
@[simp] theorem State.withDst_draws (m : Memory) : (s.withDst m).draws = s.draws := rfl

/-! ### Active destination bytes set to free values. -/

@[simp] theorem State.scramble_cfg (g : Geom) : (s.scramble g).cfg = s.cfg := rfl
@[simp] theorem State.scramble_cmd (g : Geom) : (s.scramble g).cmd = s.cmd := rfl
@[simp] theorem State.scramble_code (g : Geom) : (s.scramble g).code = s.code := rfl
@[simp] theorem State.scramble_busy (g : Geom) : (s.scramble g).busy = s.busy := rfl
@[simp] theorem State.scramble_result0 (g : Geom) : (s.scramble g).result0 = s.result0 := rfl
@[simp] theorem State.scramble_args (g : Geom) : (s.scramble g).args = s.args := rfl
@[simp] theorem State.scramble_latched (g : Geom) : (s.scramble g).latched = s.latched := rfl
@[simp] theorem State.scramble_session (g : Geom) : (s.scramble g).session = s.session := rfl
@[simp] theorem State.scramble_src (g : Geom) : (s.scramble g).src = s.src := rfl
@[simp] theorem State.scramble_dst (g : Geom) : (s.scramble g).dst = { s.dst with bytes := scrambleActive g (min s.dst.len g.dstLen) s.draws s.dst.bytes } := rfl
@[simp] theorem State.scramble_delay (g : Geom) : (s.scramble g).delay = s.delay := rfl
@[simp] theorem State.scramble_disturbed (g : Geom) : (s.scramble g).disturbed = s.disturbed := rfl
@[simp] theorem State.scramble_readData (g : Geom) : (s.scramble g).readData = s.readData := rfl
@[simp] theorem State.scramble_input (g : Geom) : (s.scramble g).input = s.input := rfl
@[simp] theorem State.scramble_draws (g : Geom) : (s.scramble g).draws = s.draws + g.h * (4 * g.w) := rfl

/-! ### A host's breach of duty during a CONVERT (93_implementation_defined.md I4). -/

@[simp] theorem State.disturb_cfg : s.disturb.cfg = s.cfg := rfl
@[simp] theorem State.disturb_cmd : s.disturb.cmd = s.cmd := rfl
@[simp] theorem State.disturb_code : s.disturb.code = s.code := rfl
@[simp] theorem State.disturb_busy : s.disturb.busy = s.busy := rfl
@[simp] theorem State.disturb_result0 : s.disturb.result0 = s.result0 := rfl
@[simp] theorem State.disturb_args : s.disturb.args = s.args := rfl
@[simp] theorem State.disturb_latched : s.disturb.latched = s.latched := rfl
@[simp] theorem State.disturb_session : s.disturb.session = s.session := rfl
@[simp] theorem State.disturb_src : s.disturb.src = s.src := rfl
@[simp] theorem State.disturb_dst : s.disturb.dst = (s.scramble s.geom).dst := rfl
@[simp] theorem State.disturb_delay : s.disturb.delay = s.delay := rfl
@[simp] theorem State.disturb_disturbed : s.disturb.disturbed = true := rfl
@[simp] theorem State.disturb_readData : s.disturb.readData = s.readData := rfl
@[simp] theorem State.disturb_input : s.disturb.input = s.input := rfl
@[simp] theorem State.disturb_draws : s.disturb.draws = s.draws + s.geom.h * (4 * s.geom.w) := rfl

/-! ### A destination byte set to a free value (93_implementation_defined.md I4). -/

@[simp] theorem State.freeDstByte_cfg (off : Nat) : (s.freeDstByte off).cfg = s.cfg := rfl
@[simp] theorem State.freeDstByte_cmd (off : Nat) : (s.freeDstByte off).cmd = s.cmd := rfl
@[simp] theorem State.freeDstByte_code (off : Nat) : (s.freeDstByte off).code = s.code := rfl
@[simp] theorem State.freeDstByte_busy (off : Nat) : (s.freeDstByte off).busy = s.busy := rfl
@[simp] theorem State.freeDstByte_result0 (off : Nat) : (s.freeDstByte off).result0 = s.result0 := rfl
@[simp] theorem State.freeDstByte_args (off : Nat) : (s.freeDstByte off).args = s.args := rfl
@[simp] theorem State.freeDstByte_latched (off : Nat) : (s.freeDstByte off).latched = s.latched := rfl
@[simp] theorem State.freeDstByte_session (off : Nat) : (s.freeDstByte off).session = s.session := rfl
@[simp] theorem State.freeDstByte_src (off : Nat) : (s.freeDstByte off).src = s.src := rfl
@[simp] theorem State.freeDstByte_dst (off : Nat) : (s.freeDstByte off).dst = s.dst.write off (Config.freeByte s.draws) := rfl
@[simp] theorem State.freeDstByte_delay (off : Nat) : (s.freeDstByte off).delay = s.delay := rfl
@[simp] theorem State.freeDstByte_disturbed (off : Nat) : (s.freeDstByte off).disturbed = s.disturbed := rfl
@[simp] theorem State.freeDstByte_readData (off : Nat) : (s.freeDstByte off).readData = s.readData := rfl
@[simp] theorem State.freeDstByte_input (off : Nat) : (s.freeDstByte off).input = s.input := rfl
@[simp] theorem State.freeDstByte_draws (off : Nat) : (s.freeDstByte off).draws = s.draws + 1 := rfl

end Sys2Proof.Machine
end

