-- ==== Sys2Proof/Laws/Session.lean ====
section
/-! SUPPORT. What SETVT's and CONVERT's checks can come to (43_session.md R181, R185), and what a CONVERT that runs its
kernel leaves. -/

namespace Sys2Proof.Machine

theorem zext32_low32 {n : Nat} (h : n < 2 ^ 32) : zext32 (low32 n) = n := by
  unfold zext32 low32
  rw [BitVec.ofInt_natCast, BitVec.toNat_ofNat, Nat.mod_eq_of_lt h]

theorem sext32_low32 {v : Int} (h1 : -2 ^ 31 ≤ v) (h2 : v < 2 ^ 31) : sext32 (low32 v) = v := by
  unfold sext32 low32
  rw [BitVec.toInt_ofInt]
  exact Int.bmod_eq_of_le (by omega) (by omega)

theorem sext32_range (w : Word) : -2 ^ 31 ≤ sext32 w ∧ sext32 w < 2 ^ 31 := by
  have h1 := BitVec.two_mul_toInt_lt (x := w)
  have h2 := BitVec.le_two_mul_toInt (x := w)
  unfold sext32
  omega

theorem Config.maxDim_le {cfg : Config} (h : cfg.wellFormed = true) : cfg.maxDim ≤ 536870911 := by
  simp only [Config.wellFormed, Bool.and_eq_true, decide_eq_true_eq] at h
  omega

/-- What SETVT stores satisfies the session invariant (10_state.md R36, 43_session.md R180). -/
theorem negotiate_stores {cfg : Config} {a : Args} {ss : Session} {r : Int} (hc : cfg.wellFormed = true)
    (h : negotiate cfg a = .stores ss r) : ss.valid = true ∧ Session.ok cfg ss = true ∧ sext32 ss.srcStride = r := by
  have hmax := Config.maxDim_le hc
  unfold negotiate at h
  simp only at h
  split at h
  · cases h
  rename_i e he
  split at h
  · cases h
  rename_i r' hr
  split at h
  · cases h
  rename_i hh
  split at h
  · cases h
  rename_i hn
  split at h
  · cases h
  rename_i hs
  split at h
  · cases h
  rename_i mode _
  simp only [Negotiation.stores.injEq] at h
  obtain ⟨rfl, rfl⟩ := h
  obtain ⟨e', he', hw0, hw1, hev, hr'⟩ := resolveStride_some hr
  rw [he] at he'
  obtain rfl : e = e' := by simpa using he'
  have hb := bpp_le he
  have hrange := sext32_range a.arg3
  have hbw : (e.bpp : Int) * zext32 a.arg1 < 2 ^ 31 := by
    have : e.bpp * zext32 a.arg1 ≤ 4 * zext32 a.arg1 := Nat.mul_le_mul_right _ hb.2
    have h2 : ((e.bpp * zext32 a.arg1 : Nat) : Int) ≤ ((4 * zext32 a.arg1 : Nat) : Int) := Int.ofNat_le.2 this
    push_cast at h2
    omega
  have hbw0 : (1 : Int) ≤ (e.bpp : Int) * zext32 a.arg1 := by
    have : 1 * 1 ≤ e.bpp * zext32 a.arg1 := Nat.mul_le_mul hb.1 (by omega)
    have h2 : ((1 : Nat) : Int) ≤ ((e.bpp * zext32 a.arg1 : Nat) : Int) := Int.ofNat_le.2 (by omega)
    push_cast at h2
    exact h2
  have hr1 : -2 ^ 31 ≤ r' ∧ r' < 2 ^ 31 ∧ r' ≠ 0 := by
    rw [hr']
    split <;> [exact ⟨hrange.1, hrange.2, by assumption⟩; exact ⟨by omega, hbw, by omega⟩]
  have hsr : sext32 (low32 r') = r' := sext32_low32 hr1.1 hr1.2.1
  have hzw : zext32 (low32 (zext32 a.arg1 : Nat)) = zext32 a.arg1 := zext32_low32 (by omega)
  have hzh : zext32 (low32 (zext32 a.arg2 : Nat)) = zext32 a.arg2 := zext32_low32 (by omega)
  have hd : sext32 (low32 (4 * (zext32 a.arg1 : Nat))) = 4 * (zext32 a.arg1 : Nat) :=
    sext32_low32 (by omega) (by omega)
  have hp : (parHint a.arg5 a.arg6).1 ≠ 0#32 ∧ (parHint a.arg5 a.arg6).2 ≠ 0#32 := by
    unfold parHint
    split
    · exact ⟨by decide, by decide⟩
    · rename_i hp
      exact not_or.1 hp
  refine ⟨rfl, ?_, hsr⟩
  simp only [Session.ok, if_true, validGeometry, he, hzw, hzh, hsr, hd, Option.map_some, Bool.and_eq_true,
    decide_eq_true_eq, bne_iff_ne, ne_eq, Bool.or_eq_true, Bool.not_eq_true', beq_eq_false_iff_ne, and_true]
  refine ⟨⟨⟨⟨⟨⟨⟨⟨⟨by omega, hw1⟩, by omega⟩, by omega⟩, ?_⟩, ?_⟩, hr1.2.2⟩, by omega⟩, hp.1⟩, hp.2⟩
  · by_cases hss : subsampled a.arg0 = true
    · exact .inr (hev hss)
    · exact .inl (by simpa using hss)
  · by_cases hid : a.arg0 = fmtNv12
    · refine .inr ?_
      by_contra hne
      exact hn ⟨hid, hne⟩
    · exact .inl hid

/-- What holds when CONVERT runs its kernel on a session that meets the invariant (42_kernels.md R145). -/
theorem convertCheck_runs {cfg : Config} {ss : Session} {a : Args} {g : Geom} (hs : Session.ok cfg ss = true)
    (h : convertCheck ss a = .runs g) :
    g = convertGeom ss a ∧ g.Ok ∧ 1 ≤ g.w ∧ g.w ≤ cfg.maxDim ∧ 1 ≤ g.h ∧ g.h ≤ cfg.maxDim ∧ g.s ≠ 0 ∧ g.d ≠ 0 ∧
      ss.valid = true := by
  unfold convertCheck at h
  simp only at h
  split at h
  · cases h
  rename_i hv
  split at h
  · cases h
  rename_i e he
  split at h
  · cases h
  split at h
  · cases h
  split at h
  · cases h
  split at h
  · cases h
  rename_i h1 h2 h3 h4
  simp only [ConvertCheck.runs.injEq] at h
  have hval : ss.valid = true := by simpa using hv
  simp only [Session.ok, hval, if_true, validGeometry, he, Option.map_some, Bool.and_eq_true, decide_eq_true_eq,
    Option.some.injEq, Bool.or_eq_true, Bool.not_eq_true', beq_eq_false_iff_ne, ne_eq] at hs
  obtain ⟨⟨⟨⟨⟨⟨⟨⟨⟨⟨⟨w1, w2⟩, w3⟩, w4⟩, w5⟩, w6⟩, w7⟩, w8⟩, hk⟩, hd⟩, _⟩, _⟩ := hs
  have hw1 : 1 ≤ g.w := by rw [← h]; exact w1
  have hbw : 1 ≤ e.bpp * g.w := by
    have := Nat.mul_le_mul (bpp_le he).1 hw1
    omega
  have hgk : g.kernel = e.kernel := by rw [← h]; exact hk.symm
  have hgw : zext32 ss.width = g.w := by rw [← h]; rfl
  have hgh : zext32 ss.height = g.h := by rw [← h]; rfl
  have hsub : subsampled ss.format = true → g.w % 2 = 0 := by
    intro hsub
    rcases w5 with w5 | w5
    · rw [hsub] at w5; cases w5
    · rw [← hgw]; simpa [even] using w5
  rw [h] at h1 h2 h3 h4
  refine ⟨h.symm, ?_, hw1, by rw [← h]; exact w2, by rw [← h]; exact w3, by rw [← h]; exact w4, ?_, ?_, hval⟩
  · rcases entryOf_cases he with ⟨hf, rfl⟩ | ⟨hf, rfl⟩ | ⟨hf, rfl⟩ | ⟨hf, rfl⟩ <;> simp only at hgk h1
    · exact
        { src := by simp only [Geom.srcActive, hgk]; omega
          dst := by omega
          srcLen := by
            simp only [srcNeed, hf, show fmtRgb32 ≠ fmtNv12 by decide, if_false] at h3
            simp only [Geom.srcBytes, hgk]; omega
          dstLen := by unfold Geom.dstBytes; omega
          even := by rw [hgk]; rintro (h | h) <;> cases h
          evenH := by rw [hgk]; intro h; cases h }
    · exact
        { src := by simp only [Geom.srcActive, hgk]; omega
          dst := by omega
          srcLen := by
            simp only [srcNeed, hf, show fmtRgb24 ≠ fmtNv12 by decide, if_false] at h3
            simp only [Geom.srcBytes, hgk]; omega
          dstLen := by unfold Geom.dstBytes; omega
          even := by rw [hgk]; rintro (h | h) <;> cases h
          evenH := by rw [hgk]; intro h; cases h }
    · exact
        { src := by simp only [Geom.srcActive, hgk]; omega
          dst := by omega
          srcLen := by
            simp only [srcNeed, hf, show fmtYuy2 ≠ fmtNv12 by decide, if_false] at h3
            simp only [Geom.srcBytes, hgk]; omega
          dstLen := by unfold Geom.dstBytes; omega
          even := fun _ => hsub (by rw [hf]; decide)
          evenH := by rw [hgk]; intro h; cases h }
    · exact
        { src := by simp only [Geom.srcActive, hgk]; omega
          dst := by omega
          srcLen := by
            simp only [srcNeed, hf, if_true] at h3
            simp only [Geom.srcBytes, hgk]; omega
          dstLen := by unfold Geom.dstBytes; omega
          even := fun _ => hsub (by rw [hf]; decide)
          evenH := fun _ => by
            rcases w6 with w6 | w6
            · exact absurd hf w6
            · rw [← hgh]; simpa [even] using w6 }
  · intro h0
    rw [h0] at h1
    simp only [Int.natAbs_zero] at h1
    omega
  · intro h0
    rw [h0] at h2
    simp only [Int.natAbs_zero] at h2
    omega

/-- A session that meets the invariant has a registered format when it is valid. -/
theorem convertCheck_registered {cfg : Config} {ss : Session} {a : Args} (hs : Session.ok cfg ss = true) :
    convertCheck ss a ≠ .unregistered := by
  intro h
  unfold convertCheck at h
  simp only at h
  split at h
  · cases h
  rename_i hv
  split at h
  · rename_i he
    simp only [Session.ok, show ss.valid = true by simpa using hv, if_true, validGeometry, he] at hs
    simp at hs
  · split at h
    · cases h
    split at h
    · cases h
    split at h
    · cases h
    split at h <;> cases h

/-- What the kernel leaves in byte b of image row i of the destination (42_kernels.md R150, R152, R154, R157). -/
def kernelByte (g : Geom) (m : Memory) : Nat → Nat → Byte :=
  match g.kernel with
  | .passthrough => fun i b => memRead m (g.srcRow i + b)
  | .rgb24 => rgb24Byte g m
  | .yuv422 => pixelVal (yuv422Pixel g m)
  | .yuv420 => pixelVal (yuv420Pixel g m)

/-- How many bytes the kernel reads (70_reset_and_hazards.md R246). -/
def readCount (g : Geom) : Nat :=
  match g.kernel with
  | .passthrough => 4 * g.w * g.h
  | .rgb24 => 3 * g.w * g.h
  | .yuv422 => 2 * g.w * g.h
  | .yuv420 => g.w * g.h + g.w * g.h / 2

/-- What a run of the selected kernel leaves: it ends inside its windows, every active destination byte is the
kernel's, every other byte is as it was, exactly the active source bytes are read, and the counts are those of R246. -/
theorem runKernel_spec {g : Geom} {hi : Nat} {p : Ports} (ok : g.Ok) (hhi : g.dstLen ≤ hi)
    (h1 : p.srcLen = g.srcLen) (h2 : p.dstLen = g.dstLen) (h3 : memWfFrom 0 hi p.dst = true) (h4 : p.reads = [])
    (h5 : p.writes = []) :
    ∃ q, runKernel g p = some q ∧
      Painted g hi (kernelByte g p.src) p q (fun _ _ => True) (SrcActive g) (readCount g) (4 * g.w * g.h) := by
  unfold runKernel kernelByte readCount
  have packed : ∀ n, g.srcActive = n → g.kernel ≠ .yuv420 → ∀ a, PackedActive g n a ↔ SrcActive g a := by
    rintro n rfl hk a
    exact ⟨.inl, fun h => h.resolve_right fun h => hk h.1⟩
  cases hk : g.kernel with
  | passthrough =>
    obtain ⟨q, hq, hp⟩ := kernelPassthrough_spec ok hk hhi (Painted.init h1 h2 h3 h4 h5)
    exact ⟨q, hq, hp.congr (fun _ _ _ _ => Iff.rfl)
      (packed _ (by simp [Geom.srcActive, hk]) (by simp [hk])) rfl rfl⟩
  | rgb24 =>
    obtain ⟨q, hq, hp⟩ := kernelRgb24_spec ok hk hhi (Painted.init h1 h2 h3 h4 h5)
    exact ⟨q, hq, hp.congr (fun _ _ _ _ => Iff.rfl)
      (packed _ (by simp [Geom.srcActive, hk]) (by simp [hk])) rfl rfl⟩
  | yuv422 =>
    obtain ⟨q, hq, hp⟩ := kernelYuv422_spec ok hk hhi (Painted.init h1 h2 h3 h4 h5)
    exact ⟨q, hq, hp.congr (fun _ _ _ _ => Iff.rfl)
      (packed _ (by simp [Geom.srcActive, hk]) (by simp [hk])) rfl rfl⟩
  | yuv420 =>
    obtain ⟨q, hq, hp⟩ := kernelYuv420_spec ok hk hhi (Painted.init h1 h2 h3 h4 h5)
    obtain ⟨m, hm⟩ : ∃ m, g.h = 2 * m := ⟨g.h / 2, by have := ok.evenH hk; omega⟩
    have e : g.w * g.h = 2 * (g.w * m) := by rw [hm]; ring
    refine ⟨q, hq, hp.congr (fun _ _ _ _ => Iff.rfl) (fun a => ?_) ?_ ?_⟩
    · simp only [PlanarActive, SrcActive, Geom.srcActive, hk, true_and]
    · rw [e, show g.h / 2 = m by omega, Nat.mul_div_cancel_left _ (by omega)]; ring
    · rw [show g.h / 2 = m by omega, hm]; ring

/-- Setting the active bytes to free values keeps the canonical form. -/
theorem scrambleActive_wf (g : Geom) (n : Nat) {len hi : Nat} {m : Memory} (hle : len ≤ hi)
    (h : memWfFrom 0 hi m = true) : memWfFrom 0 hi (scrambleActive g len n m) = true := by
  refine loopUp_spec (fun _ m => memWfFrom 0 hi m = true) h fun i _ q hq => ?_
  refine loopUp_spec (fun _ m => memWfFrom 0 hi m = true) hq fun b _ q hq => ?_
  split
  · exact memWfFrom_memWrite hq _ (Nat.zero_le _) (lt_of_lt_of_le (by assumption) hle)
  · exact hq

/-- Setting the active bytes below `len` to free values leaves every other byte alone. -/
theorem scrambleActive_frame (g : Geom) (len n : Nat) (m : Memory) {a : Nat}
    (h : ∀ i b, i < g.h → b < 4 * g.w → a < len → a ≠ g.dstRow i + b) :
    memRead (scrambleActive g len n m) a = memRead m a := by
  refine loopUp_spec (fun _ q => memRead q a = memRead m a) rfl fun i hi q hq => ?_
  refine loopUp_spec (fun _ q => memRead q a = memRead m a) hq fun b hb q hq => ?_
  split
  · rename_i hl
    rw [memRead_memWrite_ne _ _ fun e => h i b hi hb (by omega) e, hq]
  · exact hq

end Sys2Proof.Machine
end

