-- ==== Sys2Proof/Laws/Frame.lean ====
section
/-! SUPPORT. A kernel that ends changes no byte but the active destination bytes, whatever its geometry; and what freeing
the active bytes of a state's destination window keeps. -/

namespace Sys2Proof.Machine

variable {g : Geom} {a : Nat} {p q : Ports}

theorem srcRead_dst {off : Nat} {v : Byte} (h : srcRead off p = some (v, q)) : q.dst = p.dst := by
  unfold srcRead at h
  split at h <;> cases h
  rfl

theorem dstWrite_frame {off : Nat} {v : Byte} (h : dstWrite off v p = some q) (ha : a ≠ off) :
    memRead q.dst a = memRead p.dst a := by
  unfold dstWrite at h
  split at h <;> cases h
  exact memRead_memWrite_ne _ _ ha

theorem putPixel_frame {off : Nat} {c : Rgb} (h : putPixel off c p = some q) (ha : ∀ k, k < 4 → a ≠ off + k) :
    memRead q.dst a = memRead p.dst a := by
  simp only [putPixel, Option.bind_eq_bind, Option.bind_eq_some_iff] at h
  obtain ⟨p1, h1, p2, h2, p3, h3, h4⟩ := h
  rw [dstWrite_frame h4 (ha 3 (by omega)), dstWrite_frame h3 (ha 2 (by omega)), dstWrite_frame h2 (ha 1 (by omega)),
    dstWrite_frame h1 (ha 0 (by omega))]

/-- An inactive offset is none of the bytes of a pixel inside the frame. -/
theorem inactive_ne (ha : ¬ DstActive g a) {i off : Nat} (hi : i < g.h) (x : Nat) (hx : 4 * x + 4 ≤ 4 * g.w)
    (ho : off = g.dstRow i + 4 * x) : ∀ k, k < 4 → a ≠ off + k :=
  fun k hk e => ha ⟨i, 4 * x + k, hi, by omega, by omega⟩

theorem kernelPassthrough_frame (ha : ¬ DstActive g a) (h : kernelPassthrough g p = some q) :
    memRead q.dst a = memRead p.dst a := by
  refine forUp_keeps (fun r => memRead r.dst a = memRead p.dst a) rfl (fun i hi r r' hr hb => ?_) h
  refine forUp_keeps (fun r => memRead r.dst a = memRead p.dst a) hr (fun b hb' r r' hr hb => ?_) hb
  simp only [Option.bind_eq_bind, Option.bind_eq_some_iff] at hb
  obtain ⟨⟨v, p1⟩, h1, h2⟩ := hb
  rw [dstWrite_frame h2 fun e => ha ⟨i, b, hi, hb', e⟩, srcRead_dst h1, hr]

theorem kernelRgb24_frame (ha : ¬ DstActive g a) (h : kernelRgb24 g p = some q) :
    memRead q.dst a = memRead p.dst a := by
  refine forUp_keeps (fun r => memRead r.dst a = memRead p.dst a) rfl (fun i hi r r' hr hb => ?_) h
  refine forUp_keeps (fun r => memRead r.dst a = memRead p.dst a) hr (fun x hx r r' hr hb => ?_) hb
  simp only [Option.bind_eq_bind, Option.bind_eq_some_iff] at hb
  obtain ⟨⟨_, p1⟩, h1, ⟨_, p2⟩, h2, ⟨_, p3⟩, h3, h4⟩ := hb
  rw [putPixel_frame h4 (inactive_ne ha hi x (by omega) rfl), srcRead_dst h3, srcRead_dst h2, srcRead_dst h1, hr]

theorem kernelYuv422_frame (ha : ¬ DstActive g a) (h : kernelYuv422 g p = some q) :
    memRead q.dst a = memRead p.dst a := by
  refine forUp_keeps (fun r => memRead r.dst a = memRead p.dst a) rfl (fun i hi r r' hr hb => ?_) h
  refine forUp_keeps (fun r => memRead r.dst a = memRead p.dst a) hr (fun k hk r r' hr hb => ?_) hb
  simp only [Option.bind_eq_bind, Option.bind_eq_some_iff] at hb
  obtain ⟨⟨_, p1⟩, h1, ⟨_, p2⟩, h2, ⟨_, p3⟩, h3, ⟨_, p4⟩, h4, p5, h5, h6⟩ := hb
  rw [putPixel_frame h6 (inactive_ne ha hi (2 * k + 1) (by omega) (by omega)),
    putPixel_frame h5 (inactive_ne ha hi (2 * k) (by omega) (by omega)), srcRead_dst h4, srcRead_dst h3,
    srcRead_dst h2, srcRead_dst h1, hr]

theorem kernelYuv420_frame (ha : ¬ DstActive g a) (h : kernelYuv420 g p = some q) :
    memRead q.dst a = memRead p.dst a := by
  refine forUp_keeps (fun r => memRead r.dst a = memRead p.dst a) rfl (fun j hj r r' hr hb => ?_) h
  refine forUp_keeps (fun r => memRead r.dst a = memRead p.dst a) hr (fun k hk r r' hr hb => ?_) hb
  simp only [Option.bind_eq_bind, Option.bind_eq_some_iff] at hb
  obtain ⟨⟨_, p1⟩, h1, ⟨_, p2⟩, h2, ⟨_, p3⟩, h3, ⟨_, p4⟩, h4, ⟨_, p5⟩, h5, ⟨_, p6⟩, h6, p7, h7, p8, h8, p9, h9, h10⟩ := hb
  have h0 : 2 * j < g.h := by omega
  have h0' : 2 * j + 1 < g.h := by omega
  rw [putPixel_frame h10 (inactive_ne ha h0' (2 * k + 1) (by omega) (by omega)),
    putPixel_frame h9 (inactive_ne ha h0' (2 * k) (by omega) (by omega)),
    putPixel_frame h8 (inactive_ne ha h0 (2 * k + 1) (by omega) (by omega)),
    putPixel_frame h7 (inactive_ne ha h0 (2 * k) (by omega) (by omega)), srcRead_dst h6, srcRead_dst h5,
    srcRead_dst h4, srcRead_dst h3, srcRead_dst h2, srcRead_dst h1, hr]

/-- A kernel that ends has written nothing but active destination bytes (20_memory.md R59). -/
theorem runKernel_frame (ha : ¬ DstActive g a) (h : runKernel g p = some q) :
    memRead q.dst a = memRead p.dst a := by
  cases hk : g.kernel <;> simp only [runKernel, hk] at h
  · exact kernelPassthrough_frame ha h
  · exact kernelRgb24_frame ha h
  · exact kernelYuv422_frame ha h
  · exact kernelYuv420_frame ha h

/-- What CONVERT's checks answer when they pass. -/
theorem convertCheck_geom {ss : Session} {l : Args} (h : convertCheck ss l = .runs g) : g = convertGeom ss l := by
  unfold convertCheck at h
  simp only at h
  repeat' (split at h)
  all_goals cases h
  rfl

variable {s : State}

/-- Freeing the active bytes keeps the canonical form of the destination window. -/
theorem State.scramble_wf (g : Geom) (h : s.dst.wf = true) : (s.scramble g).dst.wf = true :=
  scrambleActive_wf g _ (Nat.min_le_left _ _) h

/-- Freeing the active bytes keeps every other byte. -/
theorem State.scramble_frame (h : ¬ DstWindowActive s a) : (s.scramble s.geom).dst.read a = s.dst.read a :=
  scrambleActive_frame _ _ _ _ fun i b hi hb hl e => h ⟨⟨i, b, hi, hb, e⟩, lt_of_lt_of_le hl (Nat.min_le_right _ _)⟩

end Sys2Proof.Machine
end

