-- ==== Sys2Proof/Laws/HostSide.lean ====
section
/-! SUPPORT. The register window and the operand file, read and written; and how a run unfolds into its steps. -/

namespace Sys2Proof.Machine

/-- An aligned 32-bit access inside the window is a register access. -/
theorem classify_register {cfg : Config} {off : Nat} (h : off < 256) (h4 : off % 4 = 0) :
    classify cfg (cfg.regBase + off) 4 = .register off := by
  unfold classify
  rw [if_neg (by omega), if_pos ⟨by omega, by omega, rfl⟩, show cfg.regBase + off - cfg.regBase = off by omega]

theorem regAt_arg (i : Fin 7) : regAt (0x10 + 4 * i.val) = some (.arg i) := by
  revert i; decide

theorem Args.get_set_self (a : Args) (i : Fin 7) (v : Word) : (a.set i v).get i = v := by
  fin_cases i <;> rfl

theorem Args.get_set_ne (a : Args) {i j : Fin 7} (v : Word) (h : j ≠ i) : (a.set i v).get j = a.get j := by
  fin_cases i <;> fin_cases j <;> first | rfl | exact absurd rfl h

/-- A run whose first step goes on. -/
theorem run_next (M : Host.Core) {n : Nat} {s t : M.State} (h : M.step s = .next t) : M.run (n + 1) s = M.run n t := by
  rw [Host.Core.run.eq_def]; simp only [h]

/-- A run whose first step faults. -/
theorem run_fault (M : Host.Core) {n : Nat} {s : M.State} {r : M.Fault} (h : M.step s = .fault r) :
    M.run (n + 1) s = .fault r := by
  rw [Host.Core.run.eq_def]; simp only [h]

/-- A run whose first step is refused. -/
theorem run_refused (M : Host.Core) {n : Nat} {s : M.State} {r : M.Refusal} (h : M.step s = .refused r) :
    M.run (n + 1) s = .refused r := by
  rw [Host.Core.run.eq_def]; simp only [h]

end Sys2Proof.Machine
end

