-- ==== Sys2Proof/Laws/PerInstr.lean ====
section
/-! SUPPORT. Statements made per command. Family `CommandWord`: the word a command encodes to is a legal word of format
CMDW, with the command's own OPCODE and RSVD = 0 (30_encoding.md R70, R72). -/

namespace Sys2Proof.Laws.CommandWord

/-- The command's word is a legal command word, and its fields are OPCODE and 0 (30_encoding.md R70). -/
def Statement (i : Instr) : Prop :=
  (Cmdw.ofWord (encode i)).wellFormed = true ∧ Cmdw.ofWord (encode i) = ⟨i.opcode, 0#24⟩

theorem enum : Statement .enum := by unfold Statement; decide
theorem issup : Statement .issup := by unfold Statement; decide
theorem lookup : Statement .lookup := by unfold Statement; decide
theorem resolve : Statement .resolve := by unfold Statement; decide
theorem setvt : Statement .setvt := by unfold Statement; decide
theorem convert : Statement .convert := by unfold Statement; decide
theorem senum : Statement .senum := by unfold Statement; decide
theorem sissup : Statement .sissup := by unfold Statement; decide

end Sys2Proof.Laws.CommandWord
end

