-- ==== Sys2Proof/Laws/Step.lean ====
section
/-! SUPPORT. What a command, a host move and a step can do, said once. -/

namespace Sys2Proof.Machine

/-- The ports a CONVERT starts with are what `runKernel_spec` asks for. -/
theorem runKernel_ports {s : State} {g : Geom} (ok : g.Ok) (hb : s.windowsBound g = true) (hd : s.dst.wf = true) :
    ∃ q, runKernel g (s.ports g) = some q ∧
      Painted g s.dst.len (kernelByte g s.src.bytes) (s.ports g) q (fun _ _ => True) (SrcActive g) (readCount g)
        (4 * g.w * g.h) := by
  have hb' : g.srcLen ≤ s.src.len ∧ g.dstLen ≤ s.dst.len := by
    simpa [State.windowsBound, Bool.and_eq_true] using hb
  exact runKernel_spec ok hb'.2 rfl rfl hd rfl rfl

/-- A command that goes on does one of four things: it raises a status, it completes with a result and no other write,
it is SETVT and stores a session, or it is CONVERT and has run its kernel. -/
theorem exec_cases {i : Instr} {s t : State} (h : exec i s = .next t) :
    (∃ x, t = s.raise x) ∨ (∃ r, t = s.complete r) ∨
      (i = .setvt ∧ ∃ ss r, negotiate s.cfg s.latched = .stores ss r ∧ t = { s with session := ss }.complete r) ∨
      (i = .convert ∧ ∃ g, convertCheck s.session s.latched = .runs g ∧ s.windowsBound g = true ∧
        ∃ q, runKernel g (s.ports g) = some q ∧
          ((s.disturbed = false ∧ t = (s.withDst q.dst).complete 0) ∨
            (s.disturbed = true ∧ t = (s.scramble g).complete 0))) := by
  have henum : ∀ {u : State}, (Host.Outcome.next (enumerate s) : Host.Outcome State Fault Refusal) = .next u →
      (∃ x, u = s.raise x) ∨ (∃ r, u = s.complete r) := by
    intro u hu
    simp only [Host.Outcome.next.injEq] at hu
    subst hu
    unfold enumerate
    split
    · exact .inl ⟨_, rfl⟩
    · exact .inr ⟨_, rfl⟩
  have hsup : ∀ {u : State}, (Host.Outcome.next (isSupported s) : Host.Outcome State Fault Refusal) = .next u →
      ∃ r, u = s.complete r := by
    intro u hu
    simp only [Host.Outcome.next.injEq] at hu
    exact ⟨_, hu.symm⟩
  cases i with
  | enum => exact (henum h).elim .inl fun h => .inr (.inl h)
  | senum => exact (henum h).elim .inl fun h => .inr (.inl h)
  | issup => exact .inr (.inl (hsup h))
  | sissup => exact .inr (.inl (hsup h))
  | lookup =>
    simp only [exec, execLookup] at h
    split at h <;> simp only [Host.Outcome.next.injEq] at h
    · exact .inl ⟨_, h.symm⟩
    · exact .inr (.inl ⟨_, h.symm⟩)
  | resolve =>
    simp only [exec, execResolve] at h
    split at h <;> simp only [Host.Outcome.next.injEq] at h
    · exact .inl ⟨_, h.symm⟩
    · exact .inr (.inl ⟨_, h.symm⟩)
  | setvt =>
    simp only [exec, execSetvt] at h
    split at h <;> simp only [Host.Outcome.next.injEq] at h
    · exact .inl ⟨_, h.symm⟩
    · rename_i ss r hn
      exact .inr (.inr (.inl ⟨rfl, ss, r, hn, h.symm⟩))
  | convert =>
    simp only [exec, execConvert] at h
    split at h
    · simp only [Host.Outcome.next.injEq] at h
      exact .inl ⟨_, h.symm⟩
    · cases h
    · rename_i g hg
      refine .inr (.inr (.inr ⟨rfl, g, hg, ?_⟩))
      unfold convertFrame at h
      split at h
      · rename_i hb
        refine ⟨hb, ?_⟩
        split at h
        · cases h
        · rename_i q hq
          refine ⟨q, hq, ?_⟩
          split at h <;> simp only [Host.Outcome.next.injEq] at h
          · rename_i hd
            exact .inr ⟨hd, h.symm⟩
          · rename_i hd
            exact .inl ⟨by simpa using hd, h.symm⟩
      · cases h

/-- Only CONVERT stops, and only on an unregistered session, a port access out of its window, or an unbound window. -/
theorem exec_stops {i : Instr} {s : State} {f : Fault} (h : exec i s = .fault f) :
    i = .convert ∧ (convertCheck s.session s.latched = .unregistered ∨
      ∃ g, convertCheck s.session s.latched = .runs g ∧ s.windowsBound g = true ∧ runKernel g (s.ports g) = none) := by
  cases i with
  | enum => cases h
  | senum => cases h
  | issup => cases h
  | sissup => cases h
  | lookup => simp only [exec, execLookup] at h; split at h <;> cases h
  | resolve => simp only [exec, execResolve] at h; split at h <;> cases h
  | setvt => simp only [exec, execSetvt] at h; split at h <;> cases h
  | convert =>
    simp only [exec, execConvert] at h
    split at h
    · cases h
    · rename_i hc
      exact ⟨rfl, .inl hc⟩
    · rename_i g hg
      unfold convertFrame at h
      split at h
      · rename_i hb
        split at h
        · rename_i hn
          exact ⟨rfl, .inr ⟨g, hg, hb, hn⟩⟩
        · split at h <;> cases h
      · cases h

/-- No host move faults. -/
theorem hostMove_noFault (e : HostEvent) (s : State) : NoFault (hostMove e s) := by
  intro f h
  cases e with
  | store addr size v => simp only [hostMove, hostStore] at h; split at h <;> cases h
  | load addr size => simp only [hostMove, hostLoad] at h; split at h <;> cases h
  | wait => simp only [hostMove, hostWait] at h; split at h <;> cases h
  | bindSrc vs => simp only [hostMove, hostBindSrc] at h; split at h <;> cases h
  | bindDst vs => simp only [hostMove, hostBindDst] at h; split at h <;> cases h
  | srcStore off v =>
    simp only [hostMove, hostSrcStore] at h
    split at h
    · split at h <;> cases h
    · cases h
  | srcLoad off => simp only [hostMove, hostSrcLoad] at h; split at h <;> cases h
  | dstStore off v =>
    simp only [hostMove, hostDstStore] at h
    split at h
    · split at h <;> cases h
    · cases h
  | dstLoad off =>
    simp only [hostMove, hostDstLoad] at h
    split at h
    · split at h <;> cases h
    · cases h
  | rst =>
    simp only [hostMove, hostRst] at h
    split at h <;> cases h

/-- What a host's register write can do: nothing, issue a command, or set one operand register
(10_state.md R34, R35, R40). -/
theorem writeOffset_cases (s : State) (off : Nat) (v : Word) :
    writeOffset s off v = s ∨ (s.busy = false ∧ writeOffset s off v = s.issue v) ∨
      (s.busy = false ∧ ∃ i, writeOffset s off v = { s with args := s.args.set i v }) := by
  unfold writeOffset
  split
  · exact .inl rfl
  · rename_i r _
    cases r with
    | cmd =>
      by_cases hb : s.busy = true
      · exact .inl (by simp [writeReg, hb])
      · exact .inr (.inl ⟨by simpa using hb, by simp [writeReg, hb]⟩)
    | arg i =>
      by_cases hb : s.busy = true
      · exact .inl (by simp [writeReg, hb])
      · exact .inr (.inr ⟨by simpa using hb, i, by simp [writeReg, hb]⟩)
    | status => exact .inl rfl
    | result0 => exact .inl rfl
    | sessValid => exact .inl rfl
    | sessFormat => exact .inl rfl
    | sessKernel => exact .inl rfl
    | sessWidth => exact .inl rfl
    | sessHeight => exact .inl rfl
    | sessSrcStride => exact .inl rfl
    | sessDstStride => exact .inl rfl
    | sessInterlace => exact .inl rfl
    | sessParNum => exact .inl rfl
    | sessParDen => exact .inl rfl

/-- A step is the completion of the pending command or a host move (10_state.md R20, R31). -/
theorem step_cases (s : State) :
    (s.busy = true ∧ s.delay = 0 ∧ step s = completePending s) ∨
      (s.busy = true ∧ ∃ n, s.delay = n + 1 ∧ step s = hostStep { s with delay := n }) ∨
      (s.busy = false ∧ step s = hostStep s) := by
  unfold step advance
  cases hb : s.busy with
  | false => exact .inr (.inr ⟨rfl, rfl⟩)
  | true =>
    cases hd : s.delay with
    | zero => exact .inl ⟨rfl, rfl, rfl⟩
    | succ n => exact .inr (.inl ⟨rfl, n, rfl, rfl⟩)

end Sys2Proof.Machine
end

