-- ==== Sys2Proof/Machine/Assembly.lean ====
section
/-! DEFINITION. The text of host programs (30_encoding.md R77): from characters to assembly lines, total, rejecting what
R77 does not allow; and the encoding of a program (R78). -/

namespace Sys2Proof.Machine

/-! ### Characters and numbers -/

/-- A blank inside a line. -/
def isBlank (c : Char) : Bool := c == ' ' || c == '\t' || c == '\r'

/-- A text without the blanks at its ends. -/
def trimBlanks (l : List Char) : List Char := ((l.dropWhile isBlank).reverse.dropWhile isBlank).reverse

/-- A text cut at every `sep`. -/
def splitAtChar (sep : Char) : List Char → List (List Char)
  | [] => [[]]
  | c :: cs =>
    if c = sep then [] :: splitAtChar sep cs
    else
      match splitAtChar sep cs with
      | [] => [[c]]
      | w :: ws => (c :: w) :: ws

/-- The value of a digit in base 10 or 16. -/
def digitValue (base : Nat) (c : Char) : Option Nat :=
  let d :=
    if 48 ≤ c.toNat ∧ c.toNat ≤ 57 then c.toNat - 48
    else if 97 ≤ c.toNat ∧ c.toNat ≤ 102 then c.toNat - 87
    else if 65 ≤ c.toNat ∧ c.toNat ≤ 70 then c.toNat - 55
    else 16
  if d < base then some d else none

/-- The number that digits write, after those already read. -/
def digitsValue (base : Nat) : List Char → Nat → Option Nat
  | [], acc => some acc
  | c :: cs, acc => (digitValue base c).bind fun d => digitsValue base cs (base * acc + d)

/-- A decimal or `0x` hexadecimal number (30_encoding.md R77). DESIGN CHOICE, log 14: hexadecimal digits in either case. -/
def natLiteral : List Char → Option Nat
  | [] => none
  | '0' :: 'x' :: c :: cs => digitsValue 16 (c :: cs) 0
  | c :: cs => digitsValue 10 (c :: cs) 0

/-- An integer, decimal or `0x` hexadecimal, after an optional minus sign. DESIGN CHOICE, log 22: R77 says only "Strides
may be negative" (30_encoding.md); here any integer may be, a hexadecimal one too. -/
def intLiteral : List Char → Option Int
  | '-' :: cs => (natLiteral cs).map fun n => -(n : Int)
  | cs => (natLiteral cs).map fun n => (n : Int)

/-! ### Names -/

/-- The mnemonics (30_encoding.md R72). -/
def mnemonics : List (List Char × Instr) :=
  [("ENUM".toList, .enum), ("ISSUP".toList, .issup), ("LOOKUP".toList, .lookup), ("RESOLVE".toList, .resolve),
   ("SETVT".toList, .setvt), ("CONVERT".toList, .convert), ("SENUM".toList, .senum), ("SISSUP".toList, .sissup)]

/-- The names of the four identifiers (30_encoding.md R77). -/
def formatNames : List (List Char × Format) :=
  [("RGB32".toList, .rgb32), ("RGB24".toList, .rgb24), ("YUY2".toList, .yuy2), ("NV12".toList, .nv12)]

/-- The names of the registers (10_state.md R21). -/
def registerNames : List (List Char × Reg) :=
  [("CMD".toList, .cmd), ("STATUS".toList, .status), ("RESULT0".toList, .result0), ("ARG0".toList, .arg 0),
   ("ARG1".toList, .arg 1), ("ARG2".toList, .arg 2), ("ARG3".toList, .arg 3), ("ARG4".toList, .arg 4),
   ("ARG5".toList, .arg 5), ("ARG6".toList, .arg 6), ("SESS_VALID".toList, .sessValid),
   ("SESS_FORMAT".toList, .sessFormat), ("SESS_KERNEL".toList, .sessKernel), ("SESS_WIDTH".toList, .sessWidth),
   ("SESS_HEIGHT".toList, .sessHeight), ("SESS_SRC_STRIDE".toList, .sessSrcStride),
   ("SESS_DST_STRIDE".toList, .sessDstStride), ("SESS_INTERLACE".toList, .sessInterlace),
   ("SESS_PAR_NUM".toList, .sessParNum), ("SESS_PAR_DEN".toList, .sessParDen)]

/-! ### Lines -/

/-- An operand, or the value of WR: a format name or an integer (30_encoding.md R77). DESIGN CHOICE, log 22: R77 lets
strides be negative and writes format identifiers as names, and says of no other operand whether it may be either; here
both are allowed at every operand of every command and as every WR value. -/
def parseOperand (l : List Char) : Option AsmOperand :=
  match formatNames.lookup l with
  | some f => some (.fmt f)
  | none => (intLiteral l).map .num

/-- Every operand of a list, or none. -/
def parseEach : List (List Char) → Option (List AsmOperand)
  | [] => some []
  | l :: ls => (parseOperand (trimBlanks l)).bind fun o => (parseEach ls).map (o :: ·)

/-- The operands after a mnemonic, with commas between them; there may be none (30_encoding.md R77). -/
def parseOperands (l : List Char) : Option (List AsmOperand) :=
  if trimBlanks l = [] then some [] else parseEach (splitAtChar ',' l)

/-- The host primitives WR, RD and WAIT (30_encoding.md R77). -/
def parsePrimitive (word rest : List Char) : Option AsmLine :=
  if word = "WR".toList then
    match splitAtChar ',' rest with
    | [r, v] =>
      (registerNames.lookup (trimBlanks r)).bind fun r => (parseOperand (trimBlanks v)).map fun v => .wr r v
    | _ => none
  else if word = "RD".toList then (registerNames.lookup (trimBlanks rest)).map .rd
  else if word = "WAIT".toList then (if trimBlanks rest = [] then some .wait else none)
  else none

/-- One line (30_encoding.md R77): a comment starts with `;`, a line without anything else is no line of the program,
and a line that R77 does not allow is `none`. -/
def parseLine (l : List Char) : Option (List AsmLine) :=
  let body := trimBlanks (l.takeWhile fun c => c != ';')
  let word := body.takeWhile fun c => !isBlank c
  let rest := body.dropWhile fun c => !isBlank c
  if body = [] then some []
  else
    match mnemonics.lookup word with
    | some i =>
      (parseOperands rest).bind fun ops => if (AsmLine.command i ops).wellFormed then some [.command i ops] else none
    | none => (parsePrimitive word rest).map fun a => [a]

/-- Every line of a list, or none. -/
def parseLines : List (List Char) → Option (List AsmLine)
  | [] => some []
  | l :: ls => (parseLine l).bind fun a => (parseLines ls).map (a ++ ·)

/-- A host program from its text (30_encoding.md R77). -/
def parseProgram (text : List Char) : Option (List AsmLine) := parseLines (splitAtChar '\n' text)

/-- "The encoding of a program is the list of (offset, value) pairs its `WR` lines produce" (30_encoding.md R78). -/
def programEncoding (cfg : Config) (prog : List AsmLine) : List (Nat × Word) :=
  (assemble cfg prog).filterMap fun e =>
    match e with
    | .store addr _ v => some (addr - cfg.regBase, v)
    | .load _ _ => none
    | .wait => none
    | .bindSrc _ => none
    | .bindDst _ => none
    | .srcStore _ _ => none
    | .srcLoad _ => none
    | .dstStore _ _ => none
    | .dstLoad _ => none
    | .rst => none

end Sys2Proof.Machine
end

