-- ==== Sys2Proof/Tests/Slice0.lean ====
section
/-! SUPPORT. Tests whose expected values are those of spec/95_test_vectors.md, and for every statement that has
hypotheses a state that meets them (`witness_`). -/

namespace Sys2Proof.Tests

open Sys2Proof.Machine

/-! ### Helpers -/

/-- The next state of an outcome. -/
def after : Host.Outcome State Fault Refusal → Option State
  | .next t => some t
  | .fault _ => none
  | .refused _ => none

/-- Whether an outcome is this refusal. -/
def refuses (r : Refusal) : Host.Outcome State Fault Refusal → Bool
  | .next _ => false
  | .fault _ => false
  | .refused x => decide (x = r)

theorem next_of_after {o : Host.Outcome State Fault Refusal} (p : State → Bool) (h : (after o).any p = true) :
    ∃ t, o = .next t ∧ p t = true := by
  cases o with
  | next t => exact ⟨t, rfl, h⟩
  | fault f => cases h
  | refused r => cases h

/-- Operand registers with these values, the rest 0. -/
def ops (l : List Word) : Args :=
  ⟨l.getD 0 0, l.getD 1 0, l.getD 2 0, l.getD 3 0, l.getD 4 0, l.getD 5 0, l.getD 6 0⟩

/-- The reset state with a command word pending on these operands, about to complete. -/
def pend (w : Word) (l : List Word) : State :=
  { State.reset with cmd := w, busy := true, args := ops l, latched := ops l }

/-- The code and result with which a command completes on a state. -/
def answer (i : Instr) (s : State) : Option (Status × Word) := (after (exec i s)).map fun t => (t.code, t.result0)

/-- The session SETVT stores from reset on these operands. -/
def sessionOf (l : List Word) : Session := ((after (exec .setvt (pend 5#32 l))).map State.session).getD Session.reset

/-- A CONVERT about to complete: SETVT's operands, CONVERT's operands, the bytes of the two windows. -/
def frame (vt cv : List Word) (src dst : List Byte) : State :=
  { pend 6#32 cv with session := sessionOf vt, src := Window.ofBytes src, dst := Window.ofBytes dst }

/-- The bytes of the destination window. -/
def dstBytes (s : State) : List Byte := (List.range s.dst.len).map s.dst.read

/-- A CONVERT's code and destination bytes after it. -/
def converted (s : State) : Option (Status × List Byte) := (after (exec .convert s)).map fun t => (t.code, dstBytes t)

/-- An idle state with these host moves to come. -/
def withMoves (l : List HostEvent) : State := { State.reset with input := l }

/-! ### Well-formedness -/

theorem test_reserved_bits_are_ill_formed : Cmdw.rsvdOk ⟨0x01#8, 1#24⟩ = false := by decide

theorem test_opcodes_0_and_9_are_ill_formed :
    Cmdw.opcodeOk ⟨0x00#8, 0#24⟩ = false ∧ Cmdw.opcodeOk ⟨0x09#8, 0#24⟩ = false ∧
      Cmdw.wellFormed ⟨0x00#8, 0#24⟩ = false ∧ Cmdw.wellFormed ⟨0x08#8, 0#24⟩ = true := by decide

theorem test_too_many_operands_is_ill_formed :
    (AsmLine.command .enum [.num 0, .num 1]).wellFormed = false ∧
      (AsmLine.command .convert [.num 0, .num 0, .num 0, .num 0, .num 0]).wellFormed = false := by decide

/-- The limits of 00_scope.md R7 and 20_memory.md R65. -/
theorem test_config_limits :
    Config.wellFormed ⟨1, 0⟩ = false ∧ Config.wellFormed ⟨536870912, 0⟩ = false ∧ Config.wellFormed ⟨2, 128⟩ = false ∧
      Config.wellFormed ⟨2, 256⟩ = true ∧ Config.wellFormed ⟨536870911, 0⟩ = true := by decide

/-- A window whose list is out of order, past its length, or holds an unlisted value is not in the canonical form. -/
theorem test_window_form :
    Window.wf ⟨4, [(2, 1#8), (1, 1#8)]⟩ = false ∧ Window.wf ⟨4, [(4, 1#8)]⟩ = false ∧ Window.wf ⟨4, [(1, 0#8)]⟩ = false ∧
      Window.wf ⟨4, [(0, 1#8), (3, 1#8)]⟩ = true ∧ Window.wf State.reset.src = true := by decide

/-- An access of another width or alignment is no register access (20_memory.md R54). -/
theorem test_access_shapes :
    classify ⟨65535, 256⟩ 0x102 4 = .malformed ∧ classify ⟨65535, 256⟩ 0x104 2 = .malformed ∧
      classify ⟨65535, 256⟩ 0xFE 4 = .malformed ∧ classify ⟨65535, 256⟩ 0x1FC 4 = .register 0xFC ∧
      classify ⟨65535, 256⟩ 0x200 4 = .elsewhere ∧ classify ⟨65535, 256⟩ 0xFC 4 = .elsewhere := by decide

/-! ### Decoding: words written out from 30_encoding.md R70 and R72 -/

theorem test_decode_enum : decode 0b00000000000000000000000000000001#32 = .command .enum := by decide
theorem test_decode_issup : decode 0b00000000000000000000000000000010#32 = .command .issup := by decide
theorem test_decode_lookup : decode 0b00000000000000000000000000000011#32 = .command .lookup := by decide
theorem test_decode_resolve : decode 0b00000000000000000000000000000100#32 = .command .resolve := by decide
theorem test_decode_setvt : decode 0b00000000000000000000000000000101#32 = .command .setvt := by decide
theorem test_decode_convert : decode 0b00000000000000000000000000000110#32 = .command .convert := by decide
theorem test_decode_senum : decode 0b00000000000000000000000000000111#32 = .command .senum := by decide
theorem test_decode_sissup : decode 0b00000000000000000000000000001000#32 = .command .sissup := by decide

/-- V-E. -/
theorem test_decode_illegal :
    decode 0x00000000#32 = .illegal (.unknownOpcode 0x00#8) ∧ decode 0x00000009#32 = .illegal (.unknownOpcode 0x09#8) ∧
      decode 0x000000FF#32 = .illegal (.unknownOpcode 0xFF#8) ∧ decode 0x00000101#32 = .illegal .reservedBits ∧
      decode 0x80000001#32 = .illegal .reservedBits := by decide

/-- The opcode map is unambiguous: no two rows hit one word (30_encoding.md R79). -/
theorem test_rows_do_not_overlap :
    opcodeRows.Pairwise (fun r r' => (r.pattern &&& (r.mask &&& r'.mask)) ≠ (r'.pattern &&& (r.mask &&& r'.mask))) := by
  decide

theorem test_table_words :
    decodeTableWord 32 6 = some .convert ∧ decodeTableWord 32 9 = none ∧ decodeTableWord 32 0x106 = none := by decide

/-! ### Commands: at most two each -/

/-- V-S-5, V-R. -/
theorem test_enum :
    answer .enum (pend 1#32 [3#32]) = some (.ok, 0x3231564E#32) ∧
      answer .enum (pend 1#32 [4#32]) = some (.noMoreFormats, 0#32) ∧
      answer .enum (pend 1#32 [0xFFFFFFFF#32]) = some (.noMoreFormats, 0#32) := by decide

/-- V-R. -/
theorem test_senum :
    answer .senum (pend 7#32 [1#32]) = some (.ok, 0x00000014#32) ∧
      answer .senum (pend 7#32 [5#32]) = some (.noMoreFormats, 0#32) := by decide

/-- V-R: an unregistered identifier is not an error, and the whole word is compared. -/
theorem test_issup :
    answer .issup (pend 2#32 [0x16#32]) = some (.ok, 1#32) ∧ answer .issup (pend 2#32 [0x116#32]) = some (.ok, 0#32) := by
  decide

/-- V-R. -/
theorem test_sissup :
    answer .sissup (pend 8#32 [0x32595559#32]) = some (.ok, 1#32) ∧
      answer .sissup (pend 8#32 [0x15#32]) = some (.ok, 0#32) := by decide

/-- V-R. -/
theorem test_lookup :
    answer .lookup (pend 3#32 [0x3231564E#32]) = some (.ok, 3#32) ∧
      answer .lookup (pend 3#32 [0x3231564F#32]) = some (.unsupportedFormat, 0#32) := by decide

/-- V-RS, the strides. -/
theorem test_resolve_answers :
    answer .resolve (pend 4#32 [0x14#32, 640#32]) = some (.ok, 1920#32) ∧
      answer .resolve (pend 4#32 [0x16#32, 65535#32]) = some (.ok, 0x0003FFFC#32) ∧
      answer .resolve (pend 4#32 [0x16#32, 640#32, 0xFFFFF600#32]) = some (.ok, 0xFFFFF600#32) ∧
      answer .resolve (pend 4#32 [0x16#32, 640#32, 1#32]) = some (.ok, 1#32) := by decide

/-- V-RS, the errors. -/
theorem test_resolve_errors :
    answer .resolve (pend 4#32 [0x16#32, 65536#32]) = some (.geometryError, 0#32) ∧
      answer .resolve (pend 4#32 [0x3231564E#32, 641#32]) = some (.geometryError, 0#32) ∧
      answer .resolve (pend 4#32 [0x99#32, 640#32]) = some (.geometryError, 0#32) ∧
      answer .resolve (pend 4#32 [0x32595559#32, 1#32, 4#32]) = some (.geometryError, 0#32) := by decide

/-- V-SV: SETVT RGB24, 2, 2, 0, 2, 16, 9 and SETVT RGB32, 4, 1, -16. -/
theorem test_setvt_stores :
    sessionOf [0x14#32, 2#32, 2#32, 0#32, 2#32, 16#32, 9#32] =
        ⟨true, 0x14#32, .rgb24, 2#32, 2#32, 6#32, 8#32, 1#1, 16#32, 9#32⟩ ∧
      sessionOf [0x16#32, 4#32, 1#32, 0xFFFFFFF0#32] =
        ⟨true, 0x16#32, .passthrough, 4#32, 1#32, 0xFFFFFFF0#32, 16#32, 0#1, 1#32, 1#32⟩ ∧
      answer .setvt (pend 5#32 [0x16#32, 4#32, 1#32, 0xFFFFFFF0#32]) = some (.ok, 0xFFFFFFF0#32) := by decide

/-- V-SV: the errors, in their order. -/
theorem test_setvt_errors :
    answer .setvt (pend 5#32 [0x99#32, 0#32, 2#32]) = some (.unsupportedFormat, 0#32) ∧
      answer .setvt (pend 5#32 [0x3231564E#32, 2#32, 3#32]) = some (.geometryError, 0#32) ∧
      answer .setvt (pend 5#32 [0x32595559#32, 2#32, 3#32]) = some (.ok, 4#32) ∧
      answer .setvt (pend 5#32 [0x16#32, 4#32, 1#32, 0xFFFFFFF1#32]) = some (.geometryError, 0#32) ∧
      answer .setvt (pend 5#32 [0x14#32, 2#32, 2#32, 0#32, 3#32]) = some (.geometryError, 0#32) ∧
      sessionOf [0x14#32, 2#32, 2#32, 0#32, 3#32] = Session.reset := by decide

/-- V-CV: the session and windows of the vector. -/
def cvFrame (cv : List Word) (n : Nat) : State :=
  frame [0x14#32, 2#32, 2#32] cv [1, 2, 3, 4, 5, 6, 7, 8, 9, 10, 11, 12, 0, 0, 0, 0] (List.replicate n 0xEE#8)

/-- Each kernel: V-CV's last row (padded, stored bottom-up), V-K0-1, V-K2-2, and V-K3-2, where each plane of a bottom-up
frame is flipped inside its own region (20_memory.md R56). -/
theorem test_convert_runs :
    converted (cvFrame [8#32, 0xFFFFFFF4#32, 16#32, 24#32] 24) =
        some (.ok, [11, 10, 9, 0, 0, 0, 12, 0, 0xEE, 0xEE, 0xEE, 0xEE, 3, 2, 1, 0, 6, 5, 4, 0, 0xEE, 0xEE, 0xEE, 0xEE]) ∧
      converted (frame [0x16#32, 1#32, 2#32] [0#32, 0xFFFFFFFC#32, 8#32, 8#32] [1, 2, 3, 4, 5, 6, 7, 8]
          (List.replicate 8 0xEE#8)) = some (.ok, [5, 6, 7, 8, 1, 2, 3, 4]) ∧
      converted (frame [0x32595559#32, 2#32, 1#32] [0#32, 0#32, 4#32, 8#32] [81, 90, 145, 240]
          (List.replicate 8 0xEE#8)) = some (.ok, [0, 0, 255, 0, 74, 74, 255, 0]) ∧
      converted (frame [0x3231564E#32, 4#32, 4#32, 0xFFFFFFFC#32] [0#32, 0#32, 24#32, 64#32]
          [126, 126, 81, 81, 126, 126, 81, 81, 16, 16, 235, 235, 16, 16, 235, 235, 90, 240, 54, 34, 128, 128, 128, 128]
          (List.replicate 64 0xEE#8)) =
        some (.ok, [0, 0, 0, 0, 0, 0, 0, 0, 255, 255, 255, 0, 255, 255, 255, 0,
                    0, 0, 0, 0, 0, 0, 0, 0, 255, 255, 255, 0, 255, 255, 255, 0,
                    51, 52, 255, 0, 51, 52, 255, 0, 0, 181, 0, 0, 0, 181, 0, 0,
                    51, 52, 255, 0, 51, 52, 255, 0, 0, 181, 0, 0, 0, 181, 0, 0]) := by decide +kernel

/-- V-S-6, V-CV, V-K3-1b: the errors leave the destination as it was. -/
theorem test_convert_errors :
    converted { cvFrame [0#32, 0#32, 12#32, 16#32] 2 with session := Session.reset } = some (.notReady, [0xEE, 0xEE]) ∧
      converted (cvFrame [0xFFFFFFFB#32, 0#32, 12#32, 16#32] 2) = some (.geometryError, [0xEE, 0xEE]) ∧
      converted (cvFrame [0#32, 7#32, 12#32, 16#32] 2) = some (.geometryError, [0xEE, 0xEE]) ∧
      converted (cvFrame [0#32, 0#32, 11#32, 16#32] 2) = some (.bufferError, [0xEE, 0xEE]) ∧
      converted (cvFrame [0#32, 0#32, 12#32, 15#32] 2) = some (.bufferError, [0xEE, 0xEE]) ∧
      converted (frame [0x3231564E#32, 2#32, 2#32] [0#32, 0#32, 4#32, 16#32] [16, 235, 81, 41, 128, 128] [0xEE]) =
        some (.bufferError, [0xEE]) := by decide +kernel

/-- V-CM. -/
theorem test_ycc :
    ycc 16 128 128 = ⟨0, 0, 0⟩ ∧ ycc 235 128 128 = ⟨255, 255, 255⟩ ∧ ycc 0 0 0 = ⟨0, 135, 0⟩ ∧
      ycc 255 255 255 = ⟨255, 125, 255⟩ ∧ ycc 235 16 16 = ⟨76, 255, 29⟩ ∧ ycc 41 240 110 = ⟨0, 0, 255⟩ ∧
      ycc 16 128 240 = ⟨179, 0, 0⟩ ∧ ycc 16 240 128 = ⟨0, 0, 226⟩ := by decide +kernel

/-! ### The host's side -/

/-- V-RST: every register reads 0 after reset. The decided REG_BASE is the model's (log 5). -/
theorem test_reset_reads_zero : ∀ r ∈ allRegs, readReg State.reset r = 0#32 := by decide

/-- 30_encoding.md R78: ENUM with its operand omitted writes 0 to ARG0. -/
theorem test_omitted_operand_is_zero :
    AsmLine.expand ⟨65535, 0⟩ (.command .enum []) = [.store 0x10 4 0#32, .store 0x00 4 1#32, .wait] := by decide

/-- P4's lines and R77's shapes, and lines R77 does not allow. -/
theorem test_parse :
    parseProgram "  LOOKUP 0x32595558  ; unregistered\n WR CMD, 0x00000009\nWAIT\n\n; host: done\nSISSUP YUY2".toList =
        some [.command .lookup [.num 0x32595558], .wr .cmd (.num 9), .wait, .command .sissup [.fmt .yuy2]] ∧
      parseProgram "CONVERT 8, -12, 16, 24".toList = some [.command .convert [.num 8, .num (-12), .num 16, .num 24]] ∧
      parseProgram "RD SESS_WIDTH".toList = some [.rd .sessWidth] ∧
      parseProgram "ENUM 1, 2".toList = none ∧ parseProgram "ENUM 1,".toList = none ∧
      parseProgram "CONVERT 0x".toList = none ∧ parseProgram "enum 1".toList = none := by decide +kernel

/-- P2's encoding. -/
theorem test_program_encoding :
    (parseProgram "CONVERT 8, -12, 16, 24".toList).map (programEncoding ⟨65535, 256⟩) =
      some [(0x10, 0x00000008#32), (0x14, 0xFFFFFFF4#32), (0x18, 0x00000010#32), (0x1C, 0x00000018#32),
            (0x00, 0x00000006#32)] := by decide +kernel

/-- A CMD write while idle issues; the same write while busy is ignored (10_state.md R34, R40). -/
theorem test_cmd_write :
    ((after (hostMove (.store 0 4 6#32) State.reset)).map fun t => (t.cmd, t.busy)) = some (6#32, true) ∧
      after (hostMove (.store 0 4 6#32) (pend 1#32 [])) = some (pend 1#32 []) := by decide

/-- A command placed at reset is the next step's (V-RST: ENUM 0 returns RGB32). -/
theorem test_placed_command_runs :
    ((after (step (State.reset.withFetchWord 32 1))).map fun t => (t.code, t.result0, t.busy)) =
      some (.ok, 0x16#32, false) := by decide

/-- The STATUS words of R200's codes, and of a pending command (10_state.md R25). -/
theorem test_status_words :
    [Status.ok, .unsupportedFormat, .geometryError, .noMoreFormats, .notReady, .bufferError, .illegalCommand].map
        (fun c => readReg { State.reset with code := c } .status) = [0, 1, 2, 3, 4, 5, 6] ∧
      readReg { State.reset with busy := true, code := .bufferError } .status = 0x80000005#32 := by decide

/-! ### Witnesses: the hypotheses of each statement can be met -/

/-- A 1 x 2 RGB32 frame (V-K0-1). -/
def rgb32Frame : State :=
  frame [0x16#32, 1#32, 2#32] [0#32, 0xFFFFFFFC#32, 8#32, 8#32] [1, 2, 3, 4, 5, 6, 7, 8] (List.replicate 8 0xEE#8)
/-- A 1 x 1 RGB24 frame (V-K1-1). -/
def rgb24Frame : State := frame [0x14#32, 1#32, 1#32] [0#32, 0#32, 3#32, 4#32] [10, 20, 30] [0xEE, 0xEE, 0xEE, 0xEE]
/-- A 2 x 1 YUY2 frame (V-K2-2). -/
def yuy2Frame : State :=
  frame [0x32595559#32, 2#32, 1#32] [0#32, 0#32, 4#32, 8#32] [81, 90, 145, 240] (List.replicate 8 0xEE#8)
/-- A 2 x 2 NV12 frame (V-K3-1). -/
def nv12Frame : State :=
  frame [0x3231564E#32, 2#32, 2#32] [0#32, 0#32, 6#32, 16#32] [16, 235, 81, 41, 128, 128] (List.replicate 16 0xEE#8)

theorem rgb32Frame_inv : rgb32Frame.Inv := ⟨by decide, by decide, by decide, by decide⟩
theorem rgb24Frame_inv : rgb24Frame.Inv := ⟨by decide, by decide, by decide, by decide⟩
theorem yuy2Frame_inv : yuy2Frame.Inv := ⟨by decide, by decide, by decide, by decide⟩
theorem nv12Frame_inv : nv12Frame.Inv := ⟨by decide, by decide, by decide, by decide⟩

theorem rgb32Frame_ready : ConvertReady rgb32Frame :=
  ⟨by decide, by decide, by decide, by decide, by decide, by decide, by decide, by decide⟩
theorem rgb24Frame_ready : ConvertReady rgb24Frame :=
  ⟨by decide, by decide, by decide, by decide, by decide, by decide, by decide, by decide⟩
theorem yuy2Frame_ready : ConvertReady yuy2Frame :=
  ⟨by decide, by decide, by decide, by decide, by decide, by decide, by decide, by decide⟩
theorem nv12Frame_ready : ConvertReady nv12Frame :=
  ⟨by decide, by decide, by decide, by decide, by decide, by decide, by decide, by decide⟩

theorem witness_DecodeAndEncodeAreInverse :
    Instr.enum.wellFormed = true ∧ decode 0x00000001#32 = .command .enum ∧ decode 0x00000008#32 = .command .sissup := by
  decide

theorem witness_StepRunsTheDecodedCommand :
    rgb32Frame.busy = true ∧ rgb32Frame.delay = 0 ∧ decode rgb32Frame.cmd = .command .convert ∧
      Instr.convert.wellFormed = true := by decide

/-- Both clauses at their boundaries: opcode 0, opcode 9, and RSVD = 1. -/
theorem witness_IllegalWordOnlyRaisesIllegalCommand :
    ((pend 0#32 []).busy = true ∧ (pend 0#32 []).delay = 0 ∧ (pend 0#32 []).cmd.toNat = 0) ∧
      8 < (pend 9#32 []).cmd.toNat ∧ (pend 0x101#32 []).cmd.extractLsb' 8 24 ≠ 0#24 := by decide

theorem witness_IdleBlockDoesNothing : State.reset.busy = false ∧ State.reset.input = [] := by decide

theorem witness_ResetReadsZeroEverywhere : (0 : Nat) < 256 ∧ (255 : Nat) < 256 := by decide

/-- Offsets of the kept kind: with no CONVERT pending, beyond DST_LEN with one, and (an active byte) of the free kind. -/
theorem witness_RstClearsEveryRegister :
    (¬ ((pend 5#32 []).busy = true ∧ decode (pend 5#32 []).cmd = .command .convert ∧ DstWindowActive (pend 5#32 []) 0)) ∧
      (¬ (rgb32Frame.busy = true ∧ decode rgb32Frame.cmd = .command .convert ∧ DstWindowActive rgb32Frame 8)) ∧
      DstWindowActive rgb32Frame 0 ∧ DstWindowActive rgb32Frame 7 := by
  refine ⟨fun h => absurd h.2.1 (by decide), fun h => absurd h.2.2.2 (by decide),
    ⟨⟨1, 0, by decide, by decide, by decide⟩, by decide⟩, ⟨⟨0, 3, by decide, by decide, by decide⟩, by decide⟩⟩

theorem witness_EveryStepKeepsTheInvariant : rgb32Frame.Inv ∧ ∃ t, step rgb32Frame = .next t := by
  obtain ⟨t, h, _⟩ := next_of_after (o := step rgb32Frame) (fun _ => true) (by decide +kernel)
  exact ⟨rgb32Frame_inv, t, h⟩

theorem witness_NoStepFaults : rgb32Frame.Inv ∧ nv12Frame.Inv := ⟨rgb32Frame_inv, nv12Frame_inv⟩

/-- A SETVT that completes and an RST each change the session; a CONVERT completes. -/
theorem witness_OnlySetvtAndResetWriteTheSession :
    (∃ t, step (pend 5#32 [0x16#32, 1#32, 2#32]) = .next t ∧
        decide (t.session ≠ (pend 5#32 [0x16#32, 1#32, 2#32]).session) = true) ∧
      (∃ t, step { rgb32Frame with busy := false, input := [.rst] } = .next t ∧
        decide (t.session ≠ rgb32Frame.session) = true) ∧
      ∃ t, exec .convert rgb32Frame = .next t ∧ true = true :=
  ⟨next_of_after _ (by decide), next_of_after _ (by decide), next_of_after (fun _ => true) (by decide +kernel)⟩

theorem witness_OnlyResetClearsSessValid :
    (∃ t, step { rgb32Frame with busy := false, input := [.rst] } = .next t ∧
        (rgb32Frame.session.valid && !t.session.valid) = true) ∧
      ∃ t, exec .enum rgb32Frame = .next t ∧ rgb32Frame.session.valid = true :=
  ⟨next_of_after _ (by decide), next_of_after (fun _ => rgb32Frame.session.valid) (by decide)⟩

/-- Every command answers a next state: from reset, and CONVERT and SETVT with OK too. -/
theorem witness_CommandFrame :
    (∀ i : Instr, ∃ t, exec i State.reset = .next t ∧ true = true) ∧
      (∃ t, exec .convert rgb32Frame = .next t ∧ decide (t.code = .ok) = true) ∧
      ∃ t, exec .setvt (pend 5#32 [0x16#32, 1#32, 2#32]) = .next t ∧ decide (t.code = .ok) = true :=
  ⟨fun i => next_of_after (fun _ => true) (by cases i <;> decide), next_of_after _ (by decide +kernel),
    next_of_after _ (by decide)⟩

theorem witness_FailedCommandWritesOnlyStatusAndResult :
    (∃ t, completePending (pend 0#32 []) = .next t ∧ decide (t.code ≠ .ok) = true) ∧
      ∃ t, completePending { rgb32Frame with session := Session.reset } = .next t ∧ decide (t.code ≠ .ok) = true :=
  ⟨next_of_after _ (by decide), next_of_after _ (by decide)⟩

theorem witness_StatusCodesEachCommandCanProduce : ∀ i : Instr, ∃ t, exec i State.reset = .next t ∧ true = true :=
  witness_CommandFrame.1

theorem witness_CommandReadsOnlyLatchedOperands : ∀ i : Instr, ∃ t, exec i State.reset = .next t ∧ true = true :=
  witness_CommandFrame.1

/-- Indices 0 and 3 of the first clause, 4 and 0xFFFFFFFF of the second. -/
theorem witness_EnumerationReturnsTheRegistryInOrder :
    (pend 1#32 [0#32]).latched.arg0.toNat = 0 ∧ (pend 1#32 [3#32]).latched.arg0.toNat = 3 ∧
      4 ≤ (pend 1#32 [4#32]).latched.arg0.toNat ∧ 4 ≤ (pend 7#32 [0xFFFFFFFF#32]).latched.arg0.toNat := by decide

theorem witness_MembershipTestAnswersOneOrZero :
    (pend 2#32 [0x16#32]).latched.arg0 ∈ pfcFormats.map (·.1) ∧ (pend 8#32 [0x116#32]).latched.arg0 ∉ pfcFormats.map (·.1) := by
  decide

theorem witness_LookupReturnsTheKernelTag :
    (pend 3#32 [0x3231564E#32]).latched.arg0 = 0x3231564E#32 ∧
      (pend 3#32 [0x3231564F#32]).latched.arg0 ∉ pfcFormats.map (·.1) := by decide

theorem witness_EnumeratedFormatsAreSupportedAndIndexed :
    ∃ t, exec .enum (pend 1#32 [3#32]) = .next t ∧ decide (t.code = .ok) = true := next_of_after _ (by decide)

/-- Widths 1 and 65535 of the first clause; 0, 65536 and an odd 641 of the second; an unregistered identifier. -/
theorem witness_ResolveComputesOrRejectsTheStride :
    (0x14#32, 3, Kernel.rgb24) ∈ pfcFormats ∧
      (1 ≤ (pend 4#32 [0x14#32, 1#32]).latched.arg1.toNat ∧
        (pend 4#32 [0x14#32, 1#32]).latched.arg1.toNat ≤ State.reset.cfg.maxDim ∧ (3 ≤ 2 → 1 % 2 = 0)) ∧
      (pend 4#32 [0x14#32, 65535#32]).latched.arg1.toNat ≤ State.reset.cfg.maxDim ∧
      (pend 4#32 [0x14#32, 0#32]).latched.arg1.toNat = 0 ∧
      State.reset.cfg.maxDim < (pend 4#32 [0x14#32, 65536#32]).latched.arg1.toNat ∧
      ((0x3231564E#32, 1, Kernel.yuv420) ∈ pfcFormats ∧ (pend 4#32 [0x3231564E#32, 641#32]).latched.arg1.toNat % 2 = 1) ∧
      (pend 4#32 [0x99#32]).latched.arg0 ∉ pfcFormats.map (·.1) := by decide

theorem witness_ResolveDependsOnlyOnItsOperands :
    State.reset.cfg.maxDim = (cvFrame [0#32] 4).cfg.maxDim ∧ State.reset.latched.arg0 = (cvFrame [0#32] 4).latched.arg0 ∧
      State.reset.latched.arg1 = (cvFrame [0#32] 4).latched.arg1 ∧ State.reset.latched.arg2 = (cvFrame [0#32] 4).latched.arg2 ∧
      State.reset ≠ cvFrame [0#32] 4 := by decide

/-- The stored case at its bounds (the least and the largest width and height, the least stride, hint 2), and each
error at its bound. -/
theorem witness_SetvtStoresTheWholeSessionOrRaises :
    ((0x16#32, 4, Kernel.passthrough) ∈ pfcFormats ∧
      ∃ s : State, s = pend 5#32 [0x16#32, 1#32, 65535#32, 0xFFFFFFFC#32, 2#32] ∧ s.latched.arg0 = 0x16#32 ∧
        1 ≤ s.latched.arg1.toNat ∧ s.latched.arg1.toNat ≤ s.cfg.maxDim ∧ 1 ≤ s.latched.arg2.toNat ∧
        s.latched.arg2.toNat ≤ s.cfg.maxDim ∧ s.latched.arg3.toInt = -4 ∧ 4 * s.latched.arg1.toNat ≤ (-4 : Int).natAbs ∧
        s.latched.arg4.toNat ≤ 2) ∧
      (pend 5#32 [0x16#32, 0#32]).latched.arg1.toNat = 0 ∧
      State.reset.cfg.maxDim < (pend 5#32 [0x16#32, 1#32, 65536#32]).latched.arg2.toNat ∧
      ((0x3231564E#32, 1, Kernel.yuv420) ∈ pfcFormats ∧
        (pend 5#32 [0x3231564E#32, 2#32, 3#32]).latched.arg2.toNat % 2 = 1) ∧
      (-15 : Int).natAbs < 4 * (pend 5#32 [0x16#32, 4#32, 1#32, 0xFFFFFFF1#32]).latched.arg1.toNat ∧
      2 < (pend 5#32 [0x14#32, 2#32, 2#32, 0#32, 3#32]).latched.arg4.toNat ∧
      (pend 5#32 [0x99#32]).latched.arg0 ∉ pfcFormats.map (·.1) :=
  ⟨⟨by decide, _, rfl, by decide⟩, by decide⟩

theorem witness_ValidSessionHasAValidGeometry :
    nv12Frame.Inv ∧ ∃ t, step nv12Frame = .next t ∧ t.session.valid = true :=
  ⟨nv12Frame_inv, next_of_after (fun t => t.session.valid) (by decide +kernel)⟩

theorem witness_SetvtStrideIsResolveStride :
    ∃ t, exec .setvt (pend 5#32 [0x14#32, 2#32, 2#32]) = .next t ∧ decide (t.code = .ok) = true :=
  next_of_after _ (by decide)

theorem witness_ConvertBeforeSetvtIsNotReady : State.reset.session.valid = false := by decide

/-- A source override one byte too narrow, a destination override one byte too narrow, and no override. -/
theorem witness_NarrowStrideRaisesGeometryError :
    rgb24Frame.Inv ∧ rgb24Frame.session.valid = true ∧
      (rgb24Frame.session.format, 3, rgb24Frame.session.kernel) ∈ pfcFormats ∧
      (2 : Int).natAbs < 3 * rgb24Frame.session.width.toNat ∧ (-3 : Int).natAbs < 4 * rgb24Frame.session.width.toNat ∧
      rgb24Frame.latched.arg0 = 0#32 ∧ rgb24Frame.latched.arg1 = 0#32 ∧
      { rgb24Frame with latched := ops [2#32, 0xFFFFFFFD#32] }.Inv :=
  ⟨rgb24Frame_inv, by decide, by decide, by decide, by decide, by decide, by decide,
    ⟨by decide, by decide, by decide, by decide⟩⟩

/-- SRC_LEN one short (4:2:0), and DST_LEN one short. -/
theorem witness_ShortWindowRaisesBufferError :
    (∃ s : State, s.Inv ∧ s.session.valid = true ∧ s.geom.srcActive ≤ s.geom.s.natAbs ∧ 4 * s.geom.w ≤ s.geom.d.natAbs ∧
        s.latched.arg2.toNat < s.session.height.toNat * s.geom.s.natAbs +
          (if s.session.kernel = .yuv420 then s.session.height.toNat / 2 * s.geom.s.natAbs else 0)) ∧
      ∃ s : State, s.Inv ∧ s.session.valid = true ∧ s.geom.srcActive ≤ s.geom.s.natAbs ∧ 4 * s.geom.w ≤ s.geom.d.natAbs ∧
        s.latched.arg3.toNat < s.session.height.toNat * s.geom.d.natAbs :=
  ⟨⟨{ nv12Frame with latched := ops [0#32, 0#32, 5#32, 16#32] }, ⟨by decide, by decide, by decide, by decide⟩, by decide⟩,
    ⟨{ nv12Frame with latched := ops [0#32, 0#32, 6#32, 15#32] }, ⟨by decide, by decide, by decide, by decide⟩, by decide⟩⟩

/-- A source window, and a destination window, one byte short of what is declared. -/
theorem witness_UnboundWindowIsRefused :
    (∃ g, convertCheck rgb24Frame.session rgb24Frame.latched = .runs g ∧ (Window.ofBytes [1, 2]).len < g.srcLen) ∧
      ∃ g, convertCheck rgb24Frame.session rgb24Frame.latched = .runs g ∧ (Window.ofBytes [1, 2, 3]).len < g.dstLen :=
  ⟨⟨rgb24Frame.geom, by decide, by decide⟩, ⟨rgb24Frame.geom, by decide, by decide⟩⟩

theorem witness_ReadyConvertCompletesAndKeepsOtherBytes : rgb32Frame.Inv ∧ ConvertReady rgb32Frame :=
  ⟨rgb32Frame_inv, rgb32Frame_ready⟩

theorem witness_PassthroughCopiesEveryActiveByte :
    rgb32Frame.Inv ∧ ConvertReady rgb32Frame ∧ rgb32Frame.session.kernel = .passthrough ∧ 1 < rgb32Frame.geom.h ∧
      3 < 4 * rgb32Frame.geom.w := ⟨rgb32Frame_inv, rgb32Frame_ready, by decide, by decide, by decide⟩

theorem witness_Rgb24PixelsAreWidened :
    rgb24Frame.Inv ∧ ConvertReady rgb24Frame ∧ rgb24Frame.session.kernel = .rgb24 ∧ 0 < rgb24Frame.geom.h ∧
      0 < rgb24Frame.geom.w := ⟨rgb24Frame_inv, rgb24Frame_ready, by decide, by decide, by decide⟩

theorem witness_Yuv422PairsAreDecoded :
    yuy2Frame.Inv ∧ ConvertReady yuy2Frame ∧ yuy2Frame.session.kernel = .yuv422 ∧ 0 < yuy2Frame.geom.h ∧
      0 < yuy2Frame.geom.w / 2 := ⟨yuy2Frame_inv, yuy2Frame_ready, by decide, by decide, by decide⟩

theorem witness_Yuv420BlocksAreDecoded :
    nv12Frame.Inv ∧ ConvertReady nv12Frame ∧ nv12Frame.session.kernel = .yuv420 ∧ 0 < nv12Frame.geom.h / 2 ∧
      0 < nv12Frame.geom.w / 2 := ⟨nv12Frame_inv, nv12Frame_ready, by decide, by decide, by decide⟩

/-- One frame for each of the four counts. -/
theorem witness_PortAccessCountsAreExact :
    (rgb32Frame.Inv ∧ ConvertReady rgb32Frame) ∧ (rgb24Frame.Inv ∧ ConvertReady rgb24Frame) ∧
      (yuy2Frame.Inv ∧ ConvertReady yuy2Frame) ∧ (nv12Frame.Inv ∧ ConvertReady nv12Frame) :=
  ⟨⟨rgb32Frame_inv, rgb32Frame_ready⟩, ⟨rgb24Frame_inv, rgb24Frame_ready⟩, ⟨yuy2Frame_inv, yuy2Frame_ready⟩,
    ⟨nv12Frame_inv, nv12Frame_ready⟩⟩

theorem witness_KernelTouchesExactlyTheActiveBytes : nv12Frame.Inv ∧ ConvertReady nv12Frame :=
  ⟨nv12Frame_inv, nv12Frame_ready⟩

theorem witness_DestinationContentsNeverMatter :
    rgb24Frame.Inv ∧ ConvertReady rgb24Frame ∧ (State.withDst rgb24Frame [(1, 7#8)]).Inv ∧ DstActive rgb24Frame.geom 3 :=
  ⟨rgb24Frame_inv, rgb24Frame_ready, ⟨by decide, by decide, by decide, by decide⟩, 0, 3, by decide, by decide, by decide⟩

/-- Two padded rows (s = 4) whose padding bytes 3 and 7 differ (V-K1-3). -/
theorem witness_SourcePaddingNeverMatters :
    ∃ (s : State) (w : Window), s.Inv ∧ ConvertReady s ∧ w.wf = true ∧ w.len = s.src.len ∧ w ≠ s.src ∧
      ∀ a, SrcActive s.geom a → w.read a = s.src.read a := by
  refine ⟨frame [0x14#32, 1#32, 2#32, 4#32] [0#32, 0xFFFFFFFC#32, 8#32, 8#32] [1, 2, 3, 0x99, 4, 5, 6, 0x99]
      (List.replicate 8 0xEE#8), Window.ofBytes [1, 2, 3, 0x55, 4, 5, 6, 0x66],
    ⟨by decide, by decide, by decide, by decide⟩,
    ⟨by decide, by decide, by decide, by decide, by decide, by decide, by decide, by decide⟩, by decide, by decide,
    by decide, ?_⟩
  rintro a (⟨i, b, hi, hb, rfl⟩ | ⟨hk, _⟩)
  · have hi' : i < 2 := hi
    have hb' : b < 3 := hb
    clear hi hb
    revert hb'; revert b; revert hi'; revert i
    decide
  · exact absurd hk (by decide)

theorem witness_InterlaceAndAspectRatioNeverMatter :
    ∃ t, exec .convert rgb32Frame = .next t ∧ decide (t.code = .ok) = true := next_of_after _ (by decide +kernel)

theorem witness_DisturbedConvertStillKeepsOtherBytes :
    ∃ s : State, s.Inv ∧ s.disturbed = true ∧ ConvertReady { s with disturbed := false } :=
  ⟨{ rgb32Frame with disturbed := true }, ⟨by decide, by decide, by decide, by decide⟩, by decide, rgb32Frame_ready⟩

/-- The last offset of each declared window and the first one beyond it in longer bound windows, with a CONVERT pending;
and states with none. -/
theorem witness_HostAccessDuringConvertDisturbsIt :
    ∃ s : State, s.busy = true ∧ decode s.cmd = .command .convert ∧
      (7 < s.src.len ∧ 7 < s.latched.arg2.toNat) ∧ (7 < s.dst.len ∧ 7 < s.latched.arg3.toNat) ∧
      (8 < s.src.len ∧ s.latched.arg2.toNat ≤ 8) ∧ (8 < s.dst.len ∧ s.latched.arg3.toNat ≤ 8) ∧
      { s with busy := false }.busy = false ∧ decode { s with cmd := 1#32 }.cmd ≠ .command .convert :=
  ⟨{ rgb32Frame with src := Window.ofBytes (List.replicate 9 1#8), dst := Window.ofBytes (List.replicate 9 2#8) },
    by decide⟩

/-- The two extreme sums of V-CM: the blue sums at (0, 0, .) and (255, 255, .). -/
theorem witness_ColourSumsFitNineteenBits :
    (-70688 : Int) = 298 * (((0#8).toNat : Int) - 16) + 516 * (((0#8).toNat : Int) - 128) + 128 ∧
      (136882 : Int) = 298 * (((255#8).toNat : Int) - 16) + 516 * (((255#8).toNat : Int) - 128) + 128 := by decide

theorem witness_RowsLieAsRowBaseSays : (4 : Int) ≠ 0 ∧ (-4 : Int) ≠ 0 ∧ (0 : Nat) < 2 ∧ (1 : Nat) < 2 := by decide

theorem witness_CmdWriteIssuesOnlyWhenIdle : State.reset.busy = false ∧ rgb32Frame.busy = true := by decide

theorem witness_OperandRegistersReadBack : State.reset.busy = false ∧ (0 : Fin 7) ≠ 6 := by decide

theorem witness_BusyBlockIgnoresRegisterWrites :
    rgb32Frame.busy = true ∧ (0 : Nat) < 256 ∧ 0 % 4 = 0 ∧ (0xFC : Nat) < 256 ∧ 0xFC % 4 = 0 := by decide

/-- The ends of each range of offsets. -/
theorem witness_ReservedAndReadOnlyOffsets :
    ∀ off ∈ [0x0C, 0x2C, 0x3C, 0x68, 0xFC, 0x04, 0x08, 0x40, 0x64], off % 4 = 0 ∧
      ((off = 0x0C ∨ (0x2C ≤ off ∧ off ≤ 0x3C) ∨ (0x68 ≤ off ∧ off ≤ 0xFC)) ∨
        (off = 0x04 ∨ off = 0x08 ∨ (0x40 ≤ off ∧ off ≤ 0x64))) := by decide

/-- The first and the last register of the list, and an operand register while a command is pending. -/
theorem witness_SessionRegistersReadAtTheirOffsets :
    ((0x00, 0#32) : Nat × Word) ∈ [(0x00, 0#32), (0x14, rgb32Frame.args.arg1), (0x64, rgb32Frame.session.parDen)] ∧
      ((0x14, 0xFFFFFFFC#32) : Nat × Word) ∈
        [(0x00, 0#32), (0x14, rgb32Frame.args.arg1), (0x64, rgb32Frame.session.parDen)] ∧
      ((0x64, 1#32) : Nat × Word) ∈
        [(0x00, 0#32), (0x14, rgb32Frame.args.arg1), (0x64, rgb32Frame.session.parDen)] ∧ rgb32Frame.busy = true := by
  decide

/-- A wrong width at an aligned offset, a wrong alignment, one that runs past the end, one that starts before the
window, and the last aligned word. The window is at 256. -/
theorem witness_MisshapenRegisterAccessIsRefused :
    ∃ s : State, s.cfg.regBase = 256 ∧
      (s.cfg.regBase < 0x1FC + 2 ∧ 0x1FC < s.cfg.regBase + 256 ∧ (2 : Nat) ≠ 4) ∧
      (s.cfg.regBase < 0x1FA + 4 ∧ 0x1FA < s.cfg.regBase + 256 ∧ (0x1FA - s.cfg.regBase) % 4 ≠ 0) ∧
      (s.cfg.regBase < 0x1FE + 4 ∧ 0x1FE < s.cfg.regBase + 256 ∧ (0x1FE - s.cfg.regBase) % 4 ≠ 0) ∧
      (s.cfg.regBase < 0xFE + 4 ∧ 0xFE < s.cfg.regBase) ∧
      (s.cfg.regBase < 0x1FC + 4 ∧ 0x1FC < s.cfg.regBase + 256 ∧ s.cfg.regBase ≤ 0x1FC ∧
        (0x1FC - s.cfg.regBase) % 4 = 0) :=
  ⟨{ State.reset with cfg := ⟨65535, 256⟩ }, by decide⟩

theorem witness_RegisterReadsHaveNoSideEffect :
    ∃ t, hostMove (.load 4 4) rgb32Frame = .next t ∧ decide (t.readData = 0x80000000#32) = true :=
  next_of_after _ (by decide)

theorem witness_PendingCommandIsInvisibleUntilItCompletes :
    ∃ s : State, s.busy = true ∧ 0 < s.delay ∧ (∀ rest, s.input ≠ .rst :: rest) ∧
      ∃ t, step s = .next t ∧ decide (t.args = s.args) = true :=
  ⟨{ rgb32Frame with delay := 1, input := [.store 0x10 4 9#32] }, by decide, by decide, (by intro rest h; cases h),
    next_of_after _ (by decide)⟩

/-- A command that completes, and a CONVERT on a source window shorter than declared, which is refused. -/
theorem witness_PendingCommandCompletes :
    (rgb32Frame.Inv ∧ rgb32Frame.busy = true ∧ rgb32Frame.input = []) ∧
      ∃ s : State, s.Inv ∧ s.busy = true ∧ s.input = [] ∧ refuses .windowNotBound (step s) = true ∧
        decode s.cmd = .command .convert ∧ ∃ g, convertCheck s.session s.latched = .runs g ∧ s.windowsBound g = false :=
  ⟨⟨rgb32Frame_inv, by decide, by decide⟩,
    ⟨{ rgb32Frame with src := Window.none }, ⟨by decide, by decide, by decide, by decide⟩, by decide, by decide, by decide,
      by decide, rgb32Frame.geom, by decide, by decide⟩⟩

theorem witness_WaitReturnsTheCompletedStatus :
    (∃ s : State, s.Inv ∧ s.busy = true ∧ s.input = [.wait]) ∧
      ∃ s : State, s.Inv ∧ s.busy = true ∧ s.input = [.wait] ∧
        ∃ g, convertCheck s.session s.latched = .runs g ∧ s.windowsBound g = false :=
  ⟨⟨{ rgb32Frame with input := [.wait], delay := 3 }, ⟨by decide, by decide, by decide, by decide⟩, by decide, by decide⟩,
    ⟨{ rgb32Frame with input := [.wait], src := Window.none }, ⟨by decide, by decide, by decide, by decide⟩, by decide,
      by decide, rgb32Frame.geom, by decide, by decide⟩⟩

/-- All operands given, and all but the first omitted. -/
theorem witness_ExpansionIssuesTheCommandWithItsOperands :
    ∀ l ∈ [[AsmOperand.fmt .rgb24, .num 640, .num (-1920)], [AsmOperand.fmt .rgb24]],
      ∃ s : State, s.busy = false ∧ (AsmLine.command .resolve l).wellFormed = true ∧
        s.input = AsmLine.expand s.cfg (.command .resolve l) := by
  intro l hl
  exact ⟨withMoves (AsmLine.expand Config.default (.command .resolve l)), rfl, by revert hl l; decide, rfl⟩

end Sys2Proof.Tests
end

section
/-! SUPPORT. What a host move, a command and a step can do, as inversion lemmas; and the register window read and
written through its offsets. -/

namespace Sys2Proof.Machine

/-! ### What a host move can do -/

/-- A move that touches only the two windows, which stay in canonical form, and the model's own host fields. -/
inductive HostSideOnly (s : State) : State → Prop where
  | mk (src dst : Window) (disturbed : Bool) (readData : Word) (input : List HostEvent) (draws : Nat)
      (hsrc : s.src.wf = true → src.wf = true) (hdst : s.dst.wf = true → dst.wf = true) :
      HostSideOnly s { s with src := src, dst := dst, disturbed := disturbed, readData := readData, input := input,
                              draws := draws }

/-- A load or a wait: it leaves both windows alone. -/
theorem HostSideOnly.read (s : State) (v : Word) (l : List HostEvent) :
    HostSideOnly s { s with readData := v, input := l } :=
  .mk s.src s.dst s.disturbed v l s.draws id id

/-- Freeing one bound byte after a breach of duty keeps the canonical form of the destination window. -/
theorem State.disturb_freeDstByte_wf {s : State} {off : Nat} (ho : off < s.dst.len) (hw : s.dst.wf = true) :
    (s.disturb.freeDstByte off).dst.wf = true :=
  Window.write_wf (State.scramble_wf s.geom hw) _ ho

/-- A host move writes a register, is a reset, or touches the host's side only. -/
theorem hostMove_cases {e : HostEvent} {s t : State} (h : hostMove e s = .next t) :
    (∃ off v, t = writeOffset s off v) ∨
      (e = .rst ∧ (t = s.hardReset ∨ t = (s.scramble s.geom).hardReset)) ∨ HostSideOnly s t := by
  cases e with
  | store addr size v =>
    simp only [hostMove, hostStore] at h
    split at h <;> cases h
    exact .inl ⟨_, v, rfl⟩
  | load addr size =>
    simp only [hostMove, hostLoad] at h
    split at h <;> cases h
    exact .inr (.inr (.read s _ _))
  | wait =>
    simp only [hostMove, hostWait] at h
    split at h <;> cases h <;> exact .inr (.inr (.read s _ _))
  | bindSrc vs =>
    simp only [hostMove, hostBindSrc] at h
    split at h <;> cases h
    exact .inr (.inr (.mk _ _ _ _ _ _ (fun _ => Window.ofBytes_wf vs) id))
  | bindDst vs =>
    simp only [hostMove, hostBindDst] at h
    split at h <;> cases h
    exact .inr (.inr (.mk _ _ _ _ _ _ id fun _ => Window.ofBytes_wf vs))
  | srcStore off v =>
    simp only [hostMove, hostSrcStore] at h
    split at h
    case isFalse => cases h
    case isTrue ho =>
      have hsrc : s.src.wf = true → (s.src.write off v).wf = true := fun hw => Window.write_wf hw v ho
      split at h <;> cases h
      · exact .inr (.inr (.mk _ _ _ _ _ _ hsrc (State.scramble_wf s.geom)))
      · exact .inr (.inr (.mk _ _ _ _ _ _ hsrc id))
  | srcLoad off =>
    simp only [hostMove, hostSrcLoad] at h
    split at h <;> cases h
    exact .inr (.inr (.read s _ _))
  | dstStore off v =>
    simp only [hostMove, hostDstStore] at h
    split at h
    case isFalse => cases h
    case isTrue ho =>
      split at h <;> cases h
      · exact .inr (.inr (.mk _ _ _ _ _ _ id (State.disturb_freeDstByte_wf ho)))
      · exact .inr (.inr (.mk _ _ _ _ _ _ id fun hw => Window.write_wf hw v ho))
  | dstLoad off =>
    simp only [hostMove, hostDstLoad] at h
    split at h
    case isFalse => cases h
    case isTrue ho =>
      split at h <;> cases h
      · exact .inr (.inr (.mk _ _ _ _ _ _ id (State.disturb_freeDstByte_wf ho)))
      · exact .inr (.inr (.read s _ _))
  | rst =>
    simp only [hostMove, hostRst] at h
    split at h <;> cases h
    · exact .inr (.inl ⟨rfl, .inr rfl⟩)
    · exact .inr (.inl ⟨rfl, .inl rfl⟩)

/-- A register write while BUSY = 1 is ignored (10_state.md R40). -/
theorem writeOffset_busy {s : State} (hb : s.busy = true) (off : Nat) (v : Word) : writeOffset s off v = s := by
  rcases writeOffset_cases s off v with h | ⟨hidle, _⟩ | ⟨hidle, _⟩
  · exact h
  · simp [hb] at hidle
  · simp [hb] at hidle

/-- No host move but a reset changes the parameters, STATUS.CODE, RESULT0 or the session. -/
theorem hostMove_keeps {e : HostEvent} {s t : State} (h : hostMove e s = .next t) (he : e ≠ .rst) :
    t.cfg = s.cfg ∧ t.code = s.code ∧ t.result0 = s.result0 ∧ t.session = s.session := by
  obtain ⟨off, v, rfl⟩ | ⟨hr, _⟩ | hside := hostMove_cases h
  · rcases writeOffset_cases s off v with hw | ⟨_, hw⟩ | ⟨_, i, hw⟩ <;> simp [hw]
  · exact absurd hr he
  · cases hside
    exact ⟨rfl, rfl, rfl, rfl⟩

/-- While BUSY = 1 no host move but a reset changes the pending command or any operand (10_state.md R37, R40). -/
theorem hostMove_keeps_pending {e : HostEvent} {s t : State} (h : hostMove e s = .next t) (he : e ≠ .rst)
    (hb : s.busy = true) :
    t.args = s.args ∧ t.latched = s.latched ∧ t.cmd = s.cmd ∧ t.busy = true ∧ t.delay = s.delay := by
  obtain ⟨off, v, rfl⟩ | ⟨hr, _⟩ | hside := hostMove_cases h
  · simp [writeOffset_busy hb, hb]
  · exact absurd hr he
  · cases hside
    exact ⟨rfl, rfl, rfl, hb, rfl⟩

/-- A host move keeps the session, or is a reset, which keeps the host's later moves. -/
theorem hostMove_session {e : HostEvent} {s t : State} (h : hostMove e s = .next t) :
    t.session = s.session ∨ (e = .rst ∧ t.input = s.input ∧ t.session = Session.reset) := by
  by_cases he : e = .rst
  · subst he
    simp only [hostMove, hostRst] at h
    split at h <;> cases h <;> simp
  · obtain ⟨_, _, _, hs⟩ := hostMove_keeps h he
    exact .inl hs

/-! ### What a step can do -/

/-- A pending command with no latency left completes (10_state.md R31). -/
theorem step_completes {s : State} (hb : s.busy = true) (hd : s.delay = 0) : step s = completePending s := by
  simp only [step, advance, hb, if_true, hd]

/-- While BUSY = 0 only the host moves (10_state.md R20). -/
theorem step_idle {s : State} (hb : s.busy = false) : step s = hostStep s := by
  simp only [step, advance, hb, Bool.false_eq_true, if_false]

theorem completePending_command {s : State} {i : Instr} (h : decode s.cmd = .command i) :
    completePending s = exec i s := by
  simp only [completePending, h]

theorem hostStep_nil {s : State} (h : s.input = []) : hostStep s = .next s := by
  simp only [hostStep, h]

/-- A completion runs the decoded command or answers ILLEGAL_COMMAND. -/
theorem completePending_cases {s t : State} (h : completePending s = .next t) :
    (∃ i, decode s.cmd = .command i ∧ exec i s = .next t) ∨ t = s.raise .illegalCommand := by
  unfold completePending at h
  split at h
  · rename_i i hi
    exact .inl ⟨i, hi, h⟩
  · cases h
    exact .inr rfl

/-- The host has no move to make, or takes the first of its list. -/
theorem hostStep_cases {s t : State} (h : hostStep s = .next t) :
    (s.input = [] ∧ t = s) ∨ ∃ e es, s.input = e :: es ∧ hostMove e { s with input := es } = .next t := by
  unfold hostStep at h
  split at h
  · rename_i hin
    cases h
    exact .inl ⟨hin, rfl⟩
  · rename_i e es hin
    exact .inr ⟨e, es, hin, h⟩

/-- A step that goes on completes the pending command, or is a host step, which counts the latency of a pending command
down. -/
theorem step_next_cases {s t : State} (h : step s = .next t) :
    (s.busy = true ∧ s.delay = 0 ∧ completePending s = .next t) ∨
      ((s.busy = false ∨ 0 < s.delay) ∧
        ∃ d, (s.busy = true → d + 1 = s.delay) ∧ hostStep { s with delay := d } = .next t) := by
  rcases step_cases s with ⟨hb, hd, he⟩ | ⟨hb, n, hd, he⟩ | ⟨hb, he⟩
  · exact .inl ⟨hb, hd, he ▸ h⟩
  · exact .inr ⟨.inr (by omega), n, fun _ => hd.symm, he ▸ h⟩
  · exact .inr ⟨.inl hb, s.delay, by simp [hb], he ▸ h⟩

/-! ### The session registers -/

/-- The session SETVT stores is valid (43_session.md R181). -/
theorem negotiate_valid {cfg : Config} {a : Args} {ss : Session} {r : Int} (h : negotiate cfg a = .stores ss r) :
    ss.valid = true := by
  unfold negotiate at h
  simp only at h
  repeat' split at h
  all_goals cases h
  rfl

/-- A command keeps the session, or is a SETVT that completes with OK and stores a valid one (10_state.md R26). -/
theorem exec_session {i : Instr} {s t : State} (h : exec i s = .next t) :
    t.session = s.session ∨ (i = .setvt ∧ t.code = .ok ∧ t.session.valid = true) := by
  obtain ⟨x, rfl⟩ | ⟨r, rfl⟩ | ⟨hi, ss, r, hn, rfl⟩ | ⟨_, g, _, _, q, _, ⟨_, rfl⟩ | ⟨_, rfl⟩⟩ := exec_cases h
  · exact .inl rfl
  · exact .inl rfl
  · exact .inr ⟨hi, rfl, negotiate_valid hn⟩
  · exact .inl rfl
  · exact .inl rfl

/-- A step keeps the session, completes a SETVT with OK, or takes an RST (10_state.md R26, R27). -/
theorem step_session {s t : State} (h : step s = .next t) :
    t.session = s.session ∨
      (s.busy = true ∧ s.delay = 0 ∧ decode s.cmd = .command .setvt ∧ t.code = .ok ∧ t.session.valid = true) ∨
      ((s.busy = false ∨ 0 < s.delay) ∧
        ∃ rest, s.input = .rst :: rest ∧ t.input = rest ∧ t.session = Session.reset) := by
  obtain ⟨hb, hd, hc⟩ | ⟨hmove, d, _, hh⟩ := step_next_cases h
  · obtain ⟨i, hi, he⟩ | rfl := completePending_cases hc
    · obtain hs | ⟨rfl, hok, hv⟩ := exec_session he
      · exact .inl hs
      · exact .inr (.inl ⟨hb, hd, hi, hok, hv⟩)
    · exact .inl rfl
  · obtain ⟨_, rfl⟩ | ⟨e, es, hin, hm⟩ := hostStep_cases hh
    · exact .inl rfl
    · obtain hs | ⟨rfl, hrest, hs⟩ := hostMove_session hm
      · exact .inl hs
      · exact .inr (.inr ⟨hmove, es, hin, hrest, hs⟩)

/-! ### The invariant -/

/-- The invariant speaks of the parameters, the session and the two windows only. -/
theorem State.Inv.congr {s t : State} (hi : s.Inv) (hc : t.cfg = s.cfg) (hss : t.session = s.session)
    (hsrc : t.src = s.src) (hdst : t.dst = s.dst) : t.Inv where
  config := hc ▸ hi.config
  session := by rw [hc, hss]; exact hi.session
  src := hsrc ▸ hi.src
  dst := hdst ▸ hi.dst

/-- Every session register at its reset value is a session of 10_state.md R27. -/
theorem Session.ok_reset (cfg : Config) : Session.ok cfg Session.reset = true := rfl

theorem State.Inv.hardReset {s : State} (hi : s.Inv) : s.hardReset.Inv :=
  ⟨hi.config, Session.ok_reset _, hi.src, hi.dst⟩

theorem State.Inv.scramble {s : State} (hi : s.Inv) (g : Geom) : (s.scramble g).Inv :=
  ⟨hi.config, hi.session, hi.src, State.scramble_wf g hi.dst⟩

/-- A command keeps the invariant: what SETVT stores meets it, and a kernel keeps the canonical form. -/
theorem exec_keeps_inv {i : Instr} {s t : State} (hi : s.Inv) (h : exec i s = .next t) : t.Inv := by
  obtain ⟨x, rfl⟩ | ⟨r, rfl⟩ | ⟨_, ss, r, hn, rfl⟩ | ⟨_, g, hg, hb, q, hq, ht⟩ := exec_cases h
  · exact hi.congr rfl rfl rfl rfl
  · exact hi.congr rfl rfl rfl rfl
  · obtain ⟨_, hok, _⟩ := negotiate_stores hi.config hn
    exact ⟨hi.config, hok, hi.src, hi.dst⟩
  · obtain ⟨_, hgeom, _⟩ := convertCheck_runs hi.session hg
    obtain ⟨_, hrun, hp⟩ := runKernel_ports hgeom hb hi.dst
    obtain rfl := Option.some.inj (hq.symm.trans hrun)
    obtain ⟨_, rfl⟩ | ⟨_, rfl⟩ := ht
    · exact ⟨hi.config, hi.session, hi.src, hp.wf⟩
    · exact (hi.scramble g).congr rfl rfl rfl rfl

/-- A host move keeps the invariant. -/
theorem hostMove_keeps_inv {e : HostEvent} {s t : State} (hi : s.Inv) (h : hostMove e s = .next t) : t.Inv := by
  obtain ⟨off, v, rfl⟩ | ⟨_, rfl | rfl⟩ | ⟨_, _, _, _, _, _, hsrc, hdst⟩ := hostMove_cases h
  · rcases writeOffset_cases s off v with hw | ⟨_, hw⟩ | ⟨_, i, hw⟩ <;> rw [hw]
    · exact hi
    · exact hi.congr rfl rfl rfl rfl
    · exact hi.congr rfl rfl rfl rfl
  · exact hi.hardReset
  · exact (hi.scramble _).hardReset
  · exact ⟨hi.config, hi.session, hsrc hi.src, hdst hi.dst⟩

/-- A step keeps the invariant. -/
theorem step_keeps_inv {s t : State} (hi : s.Inv) (h : step s = .next t) : t.Inv := by
  obtain ⟨_, _, hc⟩ | ⟨_, d, _, hh⟩ := step_next_cases h
  · obtain ⟨i, _, he⟩ | rfl := completePending_cases hc
    · exact exec_keeps_inv hi he
    · exact hi.congr rfl rfl rfl rfl
  · obtain ⟨_, rfl⟩ | ⟨e, es, _, hm⟩ := hostStep_cases hh
    · exact hi.congr rfl rfl rfl rfl
    · exact hostMove_keeps_inv (s := { s with delay := d, input := es }) (hi.congr rfl rfl rfl rfl) hm

/-- What the session invariant says of a valid session (10_state.md R28, R29, R32, R36). -/
theorem Session.ok_valid {cfg : Config} {ss : Session} (h : Session.ok cfg ss = true) (hv : ss.valid = true) :
    ∃ e, entryOf ss.format = some e ∧ e.kernel = ss.kernel ∧
      validGeometry cfg ss.format (zext32 ss.width) (zext32 ss.height) (sext32 ss.srcStride) = true ∧
      sext32 ss.dstStride = 4 * zext32 ss.width := by
  simp only [Session.ok, hv, if_true, Bool.and_eq_true, decide_eq_true_eq, Option.map_eq_some_iff] at h
  obtain ⟨⟨⟨⟨hgeom, e, he, hk⟩, hd⟩, _⟩, _⟩ := h
  exact ⟨e, he, hk, hgeom, hd⟩

/-- A registered identifier is in the spec's table; at most two bytes per pixel mean a subsampled format, one means
NV12 (10_state.md R33, 41_stride_resolver.md R120). -/
theorem entryOf_format {id : Word} {e : RegistryEntry} (h : entryOf id = some e) :
    (id, e.bpp, e.kernel) ∈ pfcFormats ∧ (e.bpp ≤ 2 → subsampled id = true) ∧ (e.bpp = 1 → id = fmtNv12) := by
  obtain ⟨rfl, rfl⟩ | ⟨rfl, rfl⟩ | ⟨rfl, rfl⟩ | ⟨rfl, rfl⟩ := entryOf_cases h <;> decide

/-- `ValidGeometry` of a registered identifier, written out (43_session.md R180). -/
theorem validGeometry_iff {cfg : Config} {id : Word} {e : RegistryEntry} {w h : Nat} {s : Int}
    (he : entryOf id = some e) : validGeometry cfg id w h s = true ↔
      1 ≤ w ∧ w ≤ cfg.maxDim ∧ 1 ≤ h ∧ h ≤ cfg.maxDim ∧ (subsampled id = true → w % 2 = 0) ∧
        (id = fmtNv12 → h % 2 = 0) ∧ s ≠ 0 ∧ e.bpp * w ≤ s.natAbs := by
  simp [validGeometry, he, even, and_assoc, ← imp_iff_not_or, ← Bool.not_eq_true]

/-! ### The register window -/

/-- The offsets of the registers leave 0x0C, 0x2C to 0x3C and everything from 0x68 on unused (10_state.md R21, R35). -/
theorem Reg.offset_ranges (r : Reg) :
    Reg.offset r ≤ 0x08 ∨ (0x10 ≤ Reg.offset r ∧ Reg.offset r ≤ 0x28) ∨
      (0x40 ≤ Reg.offset r ∧ Reg.offset r ≤ 0x64) := by
  cases r with
  | arg i => exact .inr (.inl (by simp only [Reg.offset]; omega))
  | _ => decide

theorem Reg.offset_lt (r : Reg) : Reg.offset r < 256 := by
  have := Reg.offset_ranges r
  omega

theorem Reg.offset_aligned (r : Reg) : Reg.offset r % 4 = 0 := by
  cases r with
  | arg i => simp only [Reg.offset]; omega
  | _ => rfl

theorem regAt_some {off : Nat} {r : Reg} (h : regAt off = some r) : Reg.offset r = off := by
  simpa using List.find?_some h

/-- A reserved offset has no register (10_state.md R35). -/
theorem regAt_reserved {off : Nat} (h4 : off % 4 = 0)
    (h : off = 0x0C ∨ (0x2C ≤ off ∧ off ≤ 0x3C) ∨ (0x68 ≤ off ∧ off ≤ 0xFC)) : regAt off = none := by
  rw [Option.eq_none_iff_forall_ne_some]
  intro r hr
  have := regAt_some hr
  have := Reg.offset_ranges r
  omega

/-- Every register is found at its own offset (10_state.md R21). -/
theorem regAt_offset (r : Reg) : regAt (Reg.offset r) = some r := by
  cases r with
  | arg i => exact regAt_arg i
  | _ => rfl

theorem readOffset_offset (s : State) (r : Reg) : readOffset s (Reg.offset r) = readReg s r := by
  simp only [readOffset, regAt_offset]

theorem writeOffset_offset (s : State) (r : Reg) (v : Word) : writeOffset s (Reg.offset r) v = writeReg s r v := by
  simp only [writeOffset, regAt_offset]

/-- A write to any offset but those of CMD and ARG0 to ARG6 is ignored (10_state.md R35). -/
theorem writeOffset_ignored (s : State) {off : Nat} (v : Word) (hcmd : off ≠ 0) (harg : off < 0x10 ∨ 0x28 < off) :
    writeOffset s off v = s := by
  unfold writeOffset
  split
  · rfl
  · rename_i r hr
    have hoff := regAt_some hr
    cases r with
    | cmd => exact absurd hoff.symm hcmd
    | arg i =>
      simp only [Reg.offset] at hoff
      omega
    | _ => rfl

/-- An aligned 32-bit load in the window returns what its offset reads as (20_memory.md R54, R61). -/
theorem hostMove_load (s : State) {off : Nat} (h : off < 256) (h4 : off % 4 = 0) :
    hostMove (.load (s.cfg.regBase + off) 4) s = .next { s with readData := readOffset s off } := by
  simp only [hostMove, hostLoad, classify_register h h4]

/-- An aligned 32-bit store in the window is a write of its offset (20_memory.md R54). -/
theorem hostMove_store (s : State) (v : Word) {off : Nat} (h : off < 256) (h4 : off % 4 = 0) :
    hostMove (.store (s.cfg.regBase + off) 4 v) s = .next (writeOffset s off v) := by
  simp only [hostMove, hostStore, classify_register h h4]

/-- A load of a register returns its value. -/
theorem hostMove_load_reg (s : State) (r : Reg) :
    hostMove (.load (s.cfg.regBase + Reg.offset r) 4) s = .next { s with readData := readReg s r } := by
  rw [hostMove_load s (Reg.offset_lt r) (Reg.offset_aligned r), readOffset_offset]

/-- A store to a register is a write of it. -/
theorem hostMove_store_reg (s : State) (r : Reg) (v : Word) :
    hostMove (.store (s.cfg.regBase + Reg.offset r) 4 v) s = .next (writeReg s r v) := by
  rw [hostMove_store s v (Reg.offset_lt r) (Reg.offset_aligned r), writeOffset_offset]

theorem readReg_reset (r : Reg) : readReg State.reset r = 0#32 := by
  cases r with
  | arg i => fin_cases i <;> rfl
  | _ => rfl

/-- A one-bit field in bit [0] of a register is its zero extension. -/
theorem zero_append_bit (x : BitVec 1) : 0#31 ++ x = x.setWidth 32 := by
  revert x; decide

/-! ### Commands and the registers they do not read -/

/-- The outcome with its next state, if it has one, changed by `f`. -/
def mapNext (f : State → State) : Host.Outcome State Fault Refusal → Host.Outcome State Fault Refusal
  | .next t => .next (f t)
  | .fault r => .fault r
  | .refused r => .refused r

/-- The state with other values in ARG0 to ARG6. -/
def State.withArgs (a : Args) (s : State) : State := { s with args := a }

theorem enumerate_withArgs (s : State) (a : Args) : enumerate (s.withArgs a) = (enumerate s).withArgs a := by
  unfold enumerate State.withArgs
  dsimp only
  split <;> rfl

theorem convertFrame_withArgs (g : Geom) (s : State) (a : Args) :
    convertFrame g (s.withArgs a) = mapNext (State.withArgs a) (convertFrame g s) := by
  have hw : (s.withArgs a).windowsBound g = s.windowsBound g := rfl
  have hp : (s.withArgs a).ports g = s.ports g := rfl
  have hd : (s.withArgs a).disturbed = s.disturbed := rfl
  unfold convertFrame
  rw [hw, hp, hd]
  split
  · split
    · rfl
    · split <;> rfl
  · rfl

/-- Other values in ARG0 to ARG6 go through a command untouched: it reads the latched copies (10_state.md R22). -/
theorem exec_withArgs (i : Instr) (s : State) (a : Args) :
    exec i (s.withArgs a) = mapNext (State.withArgs a) (exec i s) := by
  have hc : (s.withArgs a).cfg = s.cfg := rfl
  have hl : (s.withArgs a).latched = s.latched := rfl
  have hs : (s.withArgs a).session = s.session := rfl
  cases i with
  | enum => exact congrArg _ (enumerate_withArgs s a)
  | senum => exact congrArg _ (enumerate_withArgs s a)
  | issup => rfl
  | sissup => rfl
  | lookup =>
    simp only [exec, execLookup, hl]
    split <;> rfl
  | resolve =>
    simp only [exec, execResolve, hc, hl]
    split <;> rfl
  | setvt =>
    simp only [exec, execSetvt, hc, hl]
    split <;> rfl
  | convert =>
    simp only [exec, execConvert, hs, hl]
    split
    · rfl
    · rfl
    · exact convertFrame_withArgs _ s a

end Sys2Proof.Machine
end

section
/-! The statements of 10_state.md. -/

namespace Sys2Proof.Machine

/-- Settles O11: commands, host moves and reset each keep the invariant. -/
theorem everyStepKeepsTheInvariant : Obligations.EveryStepKeepsTheInvariant :=
  fun _ _ => step_keeps_inv

/-- Settles O13, from the three things a step can do to the session. -/
theorem onlySetvtAndResetWriteTheSession : Obligations.OnlySetvtAndResetWriteTheSession := by
  refine ⟨fun s t h hne => ?_, fun s t h => ?_⟩
  · obtain hs | ⟨hb, hd, hc, hok, _⟩ | hrst := step_session h
    · exact absurd hs hne
    · exact .inl ⟨hb, hd, hc, hok⟩
    · exact .inr hrst
  · obtain hs | ⟨hi, _⟩ := exec_session h
    · exact hs
    · cases hi

/-- Settles O14: a session that SETVT stores is valid, so only an RST can clear SESS_VALID. -/
theorem onlyResetClearsSessValid : Obligations.OnlyResetClearsSessValid := by
  refine ⟨fun s t h hv hv' => ?_, fun i s t h hv => ?_⟩
  · obtain hs | ⟨_, _, _, _, hset⟩ | ⟨hmove, rest, hin, hrest, _⟩ := step_session h
    · rw [hs, hv] at hv'
      cases hv'
    · rw [hset] at hv'
      cases hv'
    · exact ⟨hmove, rest, hin, hrest⟩
  · obtain hs | ⟨_, _, hset⟩ := exec_session h
    · rw [hs, hv]
    · exact hset

/-- Settles O15: what a CONVERT writes are active destination bytes, by its kernel or as free values. -/
theorem commandFrame : Obligations.CommandFrame := by
  intro i s t h
  obtain ⟨x, rfl⟩ | ⟨r, rfl⟩ | ⟨rfl, ss, r, _, rfl⟩ | ⟨rfl, g, hg, _, q, hq, ht⟩ := exec_cases h
  · simp
  · simp
  · simp
  · obtain rfl : g = s.geom := convertCheck_geom hg
    obtain ⟨_, rfl⟩ | ⟨_, rfl⟩ := ht
    · have hkernel : ∀ a, ¬ DstActive s.geom a → (s.withDst q.dst).dst.read a = s.dst.read a :=
        fun a ha => runKernel_frame ha hq
      simpa using hkernel
    · have hfree : ∀ a, ¬ DstActive s.geom a → (s.scramble s.geom).dst.read a = s.dst.read a :=
        fun a ha => State.scramble_frame fun hw => ha hw.1
      simpa using hfree

/-- Settles O19: other values in the operand registers go through every command untouched. -/
theorem commandReadsOnlyLatchedOperands : Obligations.CommandReadsOnlyLatchedOperands := by
  intro i s t a h
  calc exec i { s with args := a } = mapNext (State.withArgs a) (exec i s) := exec_withArgs i s a
    _ = .next { t with args := a } := by rw [h]; rfl

/-- Settles O27, from the invariant after the step, format by format. -/
theorem validSessionHasAValidGeometry : Obligations.ValidSessionHasAValidGeometry := by
  intro s t hi h hv
  obtain ⟨e, he, hk, hgeom, hd⟩ := Session.ok_valid (step_keeps_inv hi h).session hv
  obtain ⟨hw, hw', hh, hh', hsub, hnv, hs, hle⟩ := (validGeometry_iff he).1 hgeom
  obtain ⟨hmem, hb2, hb1⟩ := entryOf_format he
  exact ⟨e.bpp, hk ▸ hmem, hw, hw', hh, hh', hs, Nat.mul_comm _ _ ▸ hle, hd, fun hb => hsub (hb2 hb),
    fun hb => hnv (hb1 hb)⟩

/-- Settles O48, from the rules for a load and a store at a register's offset, here CMD's. -/
theorem cmdWriteIssuesOnlyWhenIdle : Obligations.CmdWriteIssuesOnlyWhenIdle := by
  intro s v
  have hstore : hostMove (.store s.cfg.regBase 4 v) s = .next (writeReg s .cmd v) := hostMove_store_reg s .cmd v
  refine ⟨hostMove_load_reg s .cmd, fun hb => ⟨Config.latency s.draws, s.draws + 1, ?_⟩, fun hb => ?_⟩
  · rw [hstore]
    simp only [writeReg, hb, Bool.false_eq_true, if_false, State.issue]
  · rw [hstore]
    simp only [writeReg, hb, if_true]

/-- Settles O49, from the rules for a store and a load at the offset of ARG i. -/
theorem operandRegistersReadBack : Obligations.OperandRegistersReadBack := by
  intro s i v hb
  refine ⟨s.args.set i v, ?_, s.args.get_set_self i v, fun j hj => s.args.get_set_ne v hj, ?_⟩
  · have hstore := hostMove_store_reg s (.arg i) v
    simpa only [Reg.offset, writeReg, hb, Bool.false_eq_true, if_false] using hstore
  · have hload := hostMove_load_reg { s with args := s.args.set i v } (.arg i)
    simpa only [Reg.offset, readReg, Args.get_set_self] using hload

/-- Settles O50: a register write while BUSY = 1 is ignored, and STATUS reads BUSY above the previous code. -/
theorem busyBlockIgnoresRegisterWrites : Obligations.BusyBlockIgnoresRegisterWrites := by
  intro s hb
  refine ⟨fun off v hoff h4 => ?_, ?_⟩
  · rw [hostMove_store s v hoff h4, writeOffset_busy hb]
  · have hstatus : readReg s .status = 0x80000000#32 ||| (s.code.toCode).setWidth 32 := by
      simp only [readReg, hb]
      cases s.code <;> rfl
    rw [← hstatus]
    exact hostMove_load_reg s .status

/-- Settles O51: no register lies at a reserved offset, and only CMD and ARG0 to ARG6 take a write. -/
theorem reservedAndReadOnlyOffsets : Obligations.ReservedAndReadOnlyOffsets := by
  intro s off v h4
  refine ⟨fun hres => ⟨?_, ?_⟩, fun hro => ?_, ?_, ?_, ?_, ?_⟩
  · have hzero : readOffset s off = 0#32 := by simp only [readOffset, regAt_reserved h4 hres]
    rw [hostMove_load s (by omega) h4, hzero]
  · rw [hostMove_store s v (by omega) h4, writeOffset_ignored s v (by omega) (by omega)]
  · rw [hostMove_store s v (by omega) h4, writeOffset_ignored s v (by omega) (by omega)]
  · change (statusWord s.busy s.code).extractLsb' 4 27 = 0#27
    cases s.busy <;> cases s.code <;> rfl
  · change (bitWord s.session.valid).extractLsb' 1 31 = 0#31
    cases s.session.valid <;> rfl
  · exact BitVec.extractLsb'_append_eq_left
  · exact BitVec.extractLsb'_append_eq_left

/-- Settles O52: the list is the register map, each register with the value it reads as. -/
theorem sessionRegistersReadAtTheirOffsets : Obligations.SessionRegistersReadAtTheirOffsets := by
  intro s off v h
  have hmap : (off, v) ∈ allRegs.map fun r => (Reg.offset r, readReg s r) := by
    simp only [allRegs, List.map, readReg, zero_append_bit]
    cases hk : s.session.kernel <;> simp only [hk] at h <;> exact h
  obtain ⟨r, _, hr⟩ := List.mem_map.1 hmap
  obtain ⟨rfl, rfl⟩ := Prod.mk.inj hr
  exact hostMove_load_reg s r

/-- Settles O55: a step that does not complete the command is idle or a host move, and none of those but a reset
touches the pending command. -/
theorem pendingCommandIsInvisibleUntilItCompletes : Obligations.PendingCommandIsInvisibleUntilItCompletes := by
  intro s t h hb hd hrst
  obtain ⟨_, hd', _⟩ | ⟨_, d, hdel, hh⟩ := step_next_cases h
  · omega
  · obtain ⟨_, rfl⟩ | ⟨e, es, hin, hm⟩ := hostStep_cases hh
    · exact ⟨rfl, rfl, rfl, rfl, rfl, rfl, hb, hdel hb⟩
    · have he : e ≠ .rst := fun he => hrst es (he ▸ hin)
      obtain ⟨_, hcode, hres, hss⟩ := hostMove_keeps hm he
      obtain ⟨hargs, hlat, hcmd, hbusy, hdelay⟩ := hostMove_keeps_pending hm he hb
      exact ⟨hcode, hres, hss, hargs, hlat, hcmd, hbusy, hdelay ▸ hdel hb⟩

/-- Settles O4: with no latency left the step is the completion, which runs the decoded command. -/
theorem stepRunsTheDecodedCommand : Obligations.StepRunsTheDecodedCommand := by
  intro s i hb hd hi _
  rw [step_completes hb hd, completePending_command hi]

/-- Settles O7: while BUSY = 0 only the host moves, and here it has no move. -/
theorem idleBlockDoesNothing : Obligations.IdleBlockDoesNothing := by
  intro s hb hin
  rw [step_idle hb, hostStep_nil hin]

/-- Settles O8: a reserved offset reads 0 in every state, and each register reads 0 at reset. -/
theorem resetReadsZeroEverywhere : Obligations.ResetReadsZeroEverywhere := by
  refine ⟨fun off _ => ?_, readReg_reset, rfl, rfl⟩
  unfold readOffset
  split
  · rfl
  · exact readReg_reset _

/-- Settles O9: no session, no window bound, and default parameters within the limits. -/
theorem resetMeetsTheInvariant : Obligations.ResetMeetsTheInvariant :=
  ⟨by decide, Session.ok_reset _, rfl, rfl⟩

/-- Settles O18: no command's arm reads CODE or RESULT0, and each way a command ends overwrites both. -/
theorem noCommandReadsStatusOrResult : Obligations.NoCommandReadsStatusOrResult := by
  intro i s c r
  cases i <;> rfl

end Sys2Proof.Machine
end

section
/-! SUPPORT. A CONVERT that executes normally: its checks pass, its kernel stays inside the needed lengths, and what it
leaves depends on the active source bytes alone. And what a host load or store at a bus address is. -/

namespace Sys2Proof.Machine

/-! ### Where the active bytes lie -/

variable {g : Geom} {s : State} {a : Nat}

/-- The needed lengths are enough for the port accesses, whatever was declared (20_memory.md R57, R58). -/
theorem Geom.Ok.tight (ok : g.Ok) : Geom.Ok { g with srcLen := g.srcBytes, dstLen := g.dstBytes } :=
  { ok with srcLen := le_rfl, dstLen := le_rfl }

/-- Every active source byte lies below SrcBytes (20_memory.md R57, R59). -/
theorem SrcActive.lt_srcBytes (ok : g.Ok) (ha : SrcActive g a) : a < g.srcBytes := by
  obtain ⟨i, b, hi, hb, rfl⟩ | ⟨hk, j, b, hj, hb, rfl⟩ := ha
  · exact Geom.srcRow_add_lt ok.tight hi hb
  · exact Geom.chromaRow_add_lt ok.tight hk hj hb

/-- Every active destination byte lies below DstBytes (20_memory.md R58, R59). -/
theorem DstActive.lt_dstBytes (ok : g.Ok) (ha : DstActive g a) : a < g.dstBytes := by
  obtain ⟨i, b, hi, hb, rfl⟩ := ha
  exact Geom.dstRow_add_lt ok.tight hi hb

/-! ### What a kernel leaves -/

section
variable {hi nr nw : Nat} {val : Nat → Nat → Byte} {p0 p : Ports} {rd : Nat → Prop}

/-- A whole run writes exactly the active destination bytes. -/
theorem Painted.mem_writes (hp : Painted g hi val p0 p (fun _ _ => True) rd nr nw) :
    a ∈ p.writes ↔ DstActive g a := by
  simp only [hp.wr, DstActive, true_and]

/-- A whole run leaves every inactive destination byte as it was. -/
theorem Painted.inactive (hp : Painted g hi val p0 p (fun _ _ => True) rd nr nw) (ha : ¬ DstActive g a) :
    memRead p.dst a = memRead p0.dst a :=
  hp.miss a fun hw => ha (hp.mem_writes.1 hw)

/-- Whole runs that paint the same values leave the same active bytes. -/
theorem Painted.active_eq {hi' nr' nw' : Nat} {val' : Nat → Nat → Byte} {p0' p' : Ports} {rd' : Nat → Prop}
    (hp : Painted g hi val p0 p (fun _ _ => True) rd nr nw)
    (hp' : Painted g hi' val' p0' p' (fun _ _ => True) rd' nr' nw')
    (hval : ∀ i b, i < g.h → b < 4 * g.w → val i b = val' i b) (ha : DstActive g a) :
    memRead p.dst a = memRead p'.dst a := by
  obtain ⟨i, b, hi, hb, rfl⟩ := ha
  rw [hp.hit i b hi hb trivial, hp'.hit i b hi hb trivial, hval i b hi hb]

end

/-- Sources that agree on the active bytes give the same kernel output: each output byte is a function of active bytes
of its own row, and for 4:2:0 of its chroma row (42_kernels.md R150, R152, R154, R157). -/
theorem kernelByte_congr (ok : g.Ok) {m m' : Memory} (h : ∀ a, SrcActive g a → memRead m a = memRead m' a) {i b : Nat}
    (hi : i < g.h) (hb : b < 4 * g.w) : kernelByte g m i b = kernelByte g m' i b := by
  have hrow : ∀ c, c < g.srcActive → memRead m (g.srcRow i + c) = memRead m' (g.srcRow i + c) :=
    fun c hc => h _ (.inl ⟨i, c, hi, hc, rfl⟩)
  unfold kernelByte
  cases hk : g.kernel <;> simp only [Geom.srcActive, hk] at hrow ⊢
  case passthrough => exact hrow b hb
  case rgb24 =>
    unfold rgb24Byte
    rw [Nat.add_assoc, Nat.add_assoc, hrow _ (by omega), hrow _ (by omega), hrow _ (by omega)]
  case yuv422 =>
    have hev := ok.even (.inl hk)
    unfold pixelVal yuv422Pixel
    rw [Nat.add_assoc, Nat.add_assoc, Nat.add_assoc, hrow _ (by omega), hrow _ (by omega), hrow _ (by omega)]
  case yuv420 =>
    have hev := ok.even (.inr hk)
    have hevh := ok.evenH hk
    have hchroma : ∀ c, c < g.w → memRead m (g.chromaRow (i / 2) + c) = memRead m' (g.chromaRow (i / 2) + c) :=
      fun c hc => h _ (.inr ⟨hk, i / 2, c, by omega, hc, rfl⟩)
    unfold pixelVal yuv420Pixel
    rw [Nat.add_assoc (g.chromaRow _), hrow _ (by omega), hchroma _ (by omega), hchroma _ (by omega)]

/-! ### A CONVERT that executes normally -/

/-- Bytes per pixel and the needed length by SESS_FORMAT are those by the kernel of that format (20_memory.md R56, R57;
41_stride_resolver.md R120). -/
theorem srcActive_srcBytes_of_entry {id : Word} {e : RegistryEntry} (he : entryOf id = some e)
    (hk : e.kernel = g.kernel) : g.srcActive = e.bpp * g.w ∧ g.srcBytes = srcNeed id g.h g.s := by
  obtain ⟨rfl, rfl⟩ | ⟨rfl, rfl⟩ | ⟨rfl, rfl⟩ | ⟨rfl, rfl⟩ := entryOf_cases he <;>
    simp [Geom.srcActive, Geom.srcBytes, srcNeed, ← hk, fmtRgb32, fmtRgb24, fmtYuy2, fmtNv12]

/-- Every check of a CONVERT that executes normally passes (43_session.md R185). -/
theorem ConvertReady.check (hr : ConvertReady s) (hi : s.Inv) :
    convertCheck s.session s.latched = .runs s.geom := by
  obtain ⟨e, he, hk, _⟩ := Session.ok_valid hi.session hr.valid
  obtain ⟨hact, hneed⟩ := srcActive_srcBytes_of_entry (g := s.geom) he hk
  have hs : ¬ s.geom.s.natAbs < e.bpp * s.geom.w := not_lt.2 (hact ▸ hr.srcStride)
  have hd : ¬ s.geom.d.natAbs < 4 * s.geom.w := not_lt.2 hr.dstStride
  have hsl : ¬ s.geom.srcLen < srcNeed s.session.format s.geom.h s.geom.s := not_lt.2 (hneed ▸ hr.srcLen)
  have hdl : ¬ s.geom.dstLen < s.geom.h * s.geom.d.natAbs := not_lt.2 hr.dstLen
  simp only [convertCheck, hr.valid, Bool.true_eq_false, he, hs, hd, hsl, hdl, if_false]

/-- The kernel of a CONVERT that executes normally starts as 42_kernels.md R145 asks. -/
theorem ConvertReady.ok (hr : ConvertReady s) (hi : s.Inv) : s.geom.Ok := by
  obtain ⟨_, hok, _⟩ := convertCheck_runs hi.session (hr.check hi)
  exact hok

/-- A CONVERT that executes normally runs its kernel to the end and stores what it leaves. -/
theorem ConvertReady.runs (hr : ConvertReady s) (hi : s.Inv) :
    ∃ q, runKernel s.geom (s.ports s.geom) = some q ∧
      Painted s.geom s.dst.len (kernelByte s.geom s.src.bytes) (s.ports s.geom) q (fun _ _ => True)
        (SrcActive s.geom) (readCount s.geom) (4 * s.geom.w * s.geom.h) ∧
      exec .convert s = .next ((s.withDst q.dst).complete 0) := by
  have hb : s.windowsBound s.geom = true := by
    simp only [State.windowsBound, hr.srcBound, hr.dstBound, decide_true, Bool.and_self]
  obtain ⟨q, hq, hp⟩ := runKernel_ports (hr.ok hi) hb hi.dst
  refine ⟨q, hq, hp, ?_⟩
  simp only [exec, execConvert, hr.check hi, convertFrame, hb, if_true, hq, hr.undisturbed, Bool.false_eq_true,
    if_false]

/-- New contents of the destination window leave a CONVERT ready. -/
theorem ConvertReady.withDst (hr : ConvertReady s) (m : Memory) : ConvertReady (s.withDst m) :=
  { hr with }

/-- A source window of the same length leaves a CONVERT ready. -/
theorem ConvertReady.withSrc (hr : ConvertReady s) {w : Window} (hw : w.len = s.src.len) :
    ConvertReady { s with src := w } :=
  { hr with srcBound := hw ▸ hr.srcBound }

/-! ### Host loads and stores -/

variable {cfg : Config} {addr size : Nat}

/-- An access that shares a byte with the window in another width or alignment (20_memory.md R54). -/
theorem classify_malformed (h1 : cfg.regBase < addr + size) (h2 : addr < cfg.regBase + 256)
    (h : size ≠ 4 ∨ addr < cfg.regBase ∨ (addr - cfg.regBase) % 4 ≠ 0) : classify cfg addr size = .malformed := by
  unfold classify
  rw [if_neg (by omega), if_neg (by omega)]

/-- A load that goes on records what the host read, and nothing else (20_memory.md R61). -/
theorem hostMove_load_next {t : State} (h : hostMove (.load addr size) s = .next t) :
    ∃ v, t = { s with readData := v } := by
  simp only [hostMove, hostLoad] at h
  split at h <;> cases h
  exact ⟨_, rfl⟩

end Sys2Proof.Machine
end

section
/-! The statements of 20_memory.md. -/

namespace Sys2Proof.Machine

/-- Settles O39: a whole run of the kernel paints the active bytes, which lie inside the needed lengths. -/
theorem kernelTouchesExactlyTheActiveBytes : Obligations.KernelTouchesExactlyTheActiveBytes := by
  intro s hi hr
  obtain ⟨q, hq, hp, _⟩ := hr.runs hi
  exact ⟨q, hq, hp.rdm, fun _ => hp.mem_writes, fun a ha => ((hp.rdm a).1 ha).lt_srcBytes (hr.ok hi),
    fun _ ha => (hp.mem_writes.1 ha).lt_dstBytes (hr.ok hi), fun _ ha => hp.inactive ha⟩

/-- Settles O40: both runs paint the active bytes with the same function of the source. -/
theorem destinationContentsNeverMatter : Obligations.DestinationContentsNeverMatter := by
  intro s m hi hr hi'
  obtain ⟨q, _, hp, ht⟩ := hr.runs hi
  obtain ⟨q', _, hp', ht'⟩ := (hr.withDst m).runs hi'
  exact ⟨_, _, ht, ht', fun _ ha => hp'.active_eq hp (fun _ _ _ _ => rfl) ha⟩

/-- Settles O41: both runs paint the same active bytes and keep the same inactive ones, and a memory in canonical form
is determined by what it reads as. -/
theorem sourcePaddingNeverMatters : Obligations.SourcePaddingNeverMatters := by
  intro s w hi hr hw hlen hsrc
  obtain ⟨q, _, hp, ht⟩ := hr.runs hi
  obtain ⟨q', _, hp', ht'⟩ := (hr.withSrc hlen).runs ⟨hi.config, hi.session, hw, hi.dst⟩
  have hdst : q'.dst = q.dst := by
    refine memory_ext hp'.wf hp.wf fun a => ?_
    by_cases ha : DstActive s.geom a
    · exact hp'.active_eq hp (fun _ _ => kernelByte_congr (hr.ok hi) hsrc) ha
    · exact (hp'.inactive ha).trans (hp.inactive ha).symm
  refine ⟨_, _, ht, ht', ?_, rfl⟩
  simp only [State.complete_dst, State.withDst_dst, hdst]

/-- Settles O47, sign by sign; the bound is that of the memory row the image row lies in. -/
theorem rowsLieAsRowBaseSays : Obligations.RowsLieAsRowBaseSays := by
  intro s n i hs hi
  refine ⟨fun hpos => ?_, fun hneg => ?_, fun hpos => ?_, fun hneg => ?_, ?_⟩
  · rw [rowBase, if_pos hpos, Nat.cast_mul, Int.natAbs_of_nonneg hpos.le]
  · rw [rowBase, if_neg (by omega), Nat.cast_mul, Int.ofNat_natAbs_of_nonpos hneg.le,
      show ((n - 1 - i : Nat) : Int) = n - 1 - i by omega]
  · rw [rowBase, if_pos hpos, Nat.zero_mul]
  · rw [rowBase, if_neg (by omega), Nat.sub_self, Nat.zero_mul]
  · rw [rowBase_eq]
    exact Nat.mul_le_mul_right _ (Nat.le_sub_one_of_lt (memRow_lt hi))

/-- Settles O53: a misshapen access is sorted as malformed; an aligned 32-bit one is at a multiple of 4 from
REG_BASE. -/
theorem misshapenRegisterAccessIsRefused : Obligations.MisshapenRegisterAccessIsRefused := by
  intro s addr size v _ h1 h2
  refine ⟨fun h => ?_, fun h4 hle hal => ?_⟩
  · have hc := classify_malformed h1 h2 h
    exact ⟨by simp only [hostMove, hostStore, hc], by simp only [hostMove, hostLoad, hc]⟩
  · subst h4
    obtain ⟨off, rfl⟩ := Nat.exists_eq_add_of_le hle
    rw [Nat.add_sub_cancel_left] at hal
    exact ⟨⟨_, hostMove_store s v (by omega) hal⟩, ⟨_, hostMove_load s (by omega) hal⟩⟩

/-- Settles O54, from what a load that goes on leaves. -/
theorem registerReadsHaveNoSideEffect : Obligations.RegisterReadsHaveNoSideEffect := by
  intro s t addr size h
  obtain ⟨v, rfl⟩ := hostMove_load_next h
  rfl

end Sys2Proof.Machine
end

section
/-! SUPPORT. The decoder inverts the encoder, what a pending command can come to, and how a run of the host's moves
goes step by step. -/

namespace Sys2Proof.Machine

/-! ### The decoder (30_encoding.md R79) -/

/-- Every row of the opcode map matches on all 32 bits, against the command's own word (30_encoding.md R72). -/
theorem opcodeRows_row : ∀ r ∈ opcodeRows, r.mask = 0xFFFFFFFF#32 ∧ r.pattern = encode r.instr := by
  decide

theorem OpcodeRow.hits_iff {r : OpcodeRow} (hr : r ∈ opcodeRows) (w : Word) :
    r.hits w = true ↔ w = encode r.instr := by
  obtain ⟨hm, hp⟩ := opcodeRows_row r hr
  have hall : w &&& 0xFFFFFFFF#32 = w := BitVec.and_allOnes
  rw [OpcodeRow.hits, hm, hp, hall, beq_iff_eq]

theorem decode_encode (i : Instr) : decode (encode i) = .command i := by
  cases i <;> rfl

/-- No bit of a command word is dropped (30_encoding.md R72). -/
theorem eq_encode_of_decode {w : Word} {i : Instr} (h : decode w = .command i) : w = encode i := by
  unfold decode at h
  split at h
  · rename_i r hr
    cases h
    have hhit : r.hits w = true := List.find?_some (p := fun r : OpcodeRow => r.hits w) hr
    exact (OpcodeRow.hits_iff (List.mem_of_find?_eq_some hr) w).1 hhit
  · cases h

/-- The word of a command lies in 0x00000001 to 0x00000008, with RSVD = 0 (30_encoding.md R70, R72). -/
theorem encode_range (i : Instr) :
    1 ≤ (encode i).toNat ∧ (encode i).toNat ≤ 8 ∧ (encode i).extractLsb' 8 24 = 0#24 := by
  cases i <;> decide

/-! ### The completion of the pending command -/

/-- `withFetchWord` places the whole 32-bit word. -/
theorem withFetchWord_word (s : State) (w : Word) : s.withFetchWord 32 w.toNat = s.place w := by
  rw [State.withFetchWord, placeTableWord, Nat.mod_eq_of_lt w.isLt, BitVec.ofNat_toNat, BitVec.setWidth_eq]

/-- A word that is no command's completes with ILLEGAL_COMMAND (30_encoding.md R75). -/
theorem completePending_illegal {s : State} (h : ∀ i, s.cmd ≠ encode i) :
    completePending s = .next (s.raise .illegalCommand) := by
  unfold completePending
  split
  · rename_i i hi
    exact absurd (eq_encode_of_decode hi) (h i)
  · rfl

/-- The checks of the pending CONVERT pass, on a window declared longer than the memory the host bound
(93_implementation_defined.md I2). -/
def State.PendingOnUnbound (s : State) : Prop :=
  decode s.cmd = .command .convert ∧ ∃ g, convertCheck s.session s.latched = .runs g ∧ s.windowsBound g = false

/-- Under the invariant no command faults (60_exceptions.md R214). -/
theorem exec_noFault {s : State} (hi : s.Inv) (i : Instr) : NoFault (exec i s) := by
  intro f hf
  obtain ⟨_, hun | ⟨g, hg, hb, hnone⟩⟩ := exec_stops hf
  · exact convertCheck_registered hi.session hun
  · obtain ⟨_, hok, _⟩ := convertCheck_runs hi.session hg
    obtain ⟨q, hq, _⟩ := runKernel_ports hok hb hi.dst
    rw [hnone] at hq
    cases hq

/-- Only CONVERT is refused, and only on an unbound window (93_implementation_defined.md I2). -/
theorem exec_refused {i : Instr} {s : State} {r : Refusal} (h : exec i s = .refused r) :
    i = .convert ∧ r = .windowNotBound ∧
      ∃ g, convertCheck s.session s.latched = .runs g ∧ s.windowsBound g = false := by
  cases i with
  | enum => cases h
  | senum => cases h
  | issup => cases h
  | sissup => cases h
  | lookup => simp only [exec, execLookup] at h; split at h <;> cases h
  | resolve => simp only [exec, execResolve] at h; split at h <;> cases h
  | setvt => simp only [exec, execSetvt] at h; split at h <;> cases h
  | convert =>
    simp only [exec, execConvert] at h
    split at h
    · cases h
    · cases h
    · rename_i g hg
      unfold convertFrame at h
      split at h
      · split at h
        · cases h
        · split at h <;> cases h
      · rename_i hb
        cases h
        exact ⟨rfl, rfl, g, hg, by simpa using hb⟩

/-- Under the invariant the pending command completes, and leaves the host's moves alone, or is a CONVERT on an unbound
window (70_reset_and_hazards.md R245, 93_implementation_defined.md I2). -/
theorem completePending_ends {s : State} (hi : s.Inv) :
    (∃ t, completePending s = .next t ∧ t.busy = false ∧ t.input = s.input) ∨
      (s.PendingOnUnbound ∧ completePending s = .refused .windowNotBound) := by
  cases hd : decode s.cmd with
  | illegal why => exact .inl ⟨s.raise .illegalCommand, by simp only [completePending, hd], rfl, rfl⟩
  | command i =>
    rw [completePending_command hd]
    cases he : exec i s with
    | next t =>
      obtain ⟨_, _, _, _, _, _, _, _, _, hin, hb, _⟩ := commandFrame i s t he
      exact .inl ⟨t, rfl, hb, hin⟩
    | fault f => exact absurd he (exec_noFault hi i f)
    | refused r =>
      obtain ⟨rfl, rfl, hg⟩ := exec_refused he
      exact .inr ⟨⟨hd, hg⟩, rfl⟩

/-! ### Runs -/

/-- A run that goes on past its first `n` steps goes on from where they end. -/
theorem run_add (M : Host.Core) {n k : Nat} {s t : M.State} (h : M.run n s = .next t) :
    M.run (n + k) s = M.run k t := by
  induction n generalizing s with
  | zero =>
    cases h
    rw [Nat.zero_add]
  | succ n ih =>
    rw [Nat.add_right_comm]
    cases hs : M.step s with
    | next u => rw [run_next M hs] at h ⊢; exact ih h
    | fault r => rw [run_fault M hs] at h; cases h
    | refused r => rw [run_refused M hs] at h; cases h

/-- While a command has latency left, a step is one of the host's (70_reset_and_hazards.md R245). -/
theorem step_latency {n : Nat} {s : State} (hb : s.busy = true) (hd : s.delay = n + 1) :
    step s = hostStep { s with delay := n } := by
  simp only [step, advance, hb, if_true, hd]

theorem hostStep_cons {s : State} {e : HostEvent} {es : List HostEvent} (h : s.input = e :: es) :
    hostStep s = hostMove e { s with input := es } := by
  simp only [hostStep, h]

theorem hostMove_wait_busy {s : State} (hb : s.busy = true) :
    hostMove .wait s = .next { s with readData := readReg s .status, input := .wait :: s.input } :=
  if_pos hb

theorem hostMove_wait_idle {s : State} (hb : s.busy = false) :
    hostMove .wait s = .next { s with readData := readReg s .status } :=
  if_neg (by simp [hb])

/-- With BUSY = 0, STATUS reads as its code (10_state.md R25). -/
theorem readReg_status_idle {s : State} (hb : s.busy = false) :
    readReg s .status = s.code.toCode.setWidth 32 := by
  simp only [readReg, hb]
  cases s.code <;> rfl

/-- While BUSY = 1, WAIT stays the host's next move until the command is about to complete (30_encoding.md R77). -/
theorem run_wait {n : Nat} {s : State} (hb : s.busy = true) (hd : s.delay = n) (hin : s.input = [.wait]) :
    ∃ v, Host.Core.run core n s = .next { s with delay := 0, readData := v, input := [.wait] } := by
  induction n generalizing s with
  | zero =>
    have hs : s = { s with delay := 0, input := [.wait] } := by rw [← hd, ← hin]
    exact ⟨s.readData, congrArg Host.Outcome.next hs⟩
  | succ n ih =>
    have hstep : step s = .next { s with delay := n, readData := readReg s .status, input := [.wait] } :=
      calc step s = hostMove .wait { s with delay := n, input := [] } := (step_latency hb hd).trans (hostStep_cons hin)
        _ = _ := hostMove_wait_busy hb
    obtain ⟨v, hv⟩ := ih (s := { s with delay := n, readData := readReg s .status, input := [.wait] }) hb rfl rfl
    exact ⟨v, (run_next core hstep).trans hv⟩

/-- A WAIT while BUSY = 0 ends with STATUS read (30_encoding.md R77). -/
theorem step_wait_idle {s : State} (hb : s.busy = false) (hin : s.input = [.wait]) :
    step s = .next { s with readData := s.code.toCode.setWidth 32, input := [] } :=
  calc step s = hostMove .wait { s with input := [] } := (step_idle hb).trans (hostStep_cons hin)
    _ = .next { s with readData := readReg s .status, input := [] } := hostMove_wait_idle hb
    _ = _ := by rw [readReg_status_idle hb]

/-! ### The expansion of a command line (30_encoding.md R78) -/

/-- The word operand number `k` stands for, 0 for an omitted one (30_encoding.md R77). -/
def operandWord (ops : List AsmOperand) (k : Nat) : Word := (ops[k]?.map AsmOperand.word).getD 0#32

@[simp] theorem operandWord_tail (ops : List AsmOperand) (k : Nat) :
    operandWord ops.tail k = operandWord ops (k + 1) := by
  rw [operandWord, List.getElem?_tail, operandWord]

theorem argMoves_succ (cfg : Config) (n : Nat) (ops : List AsmOperand) {k : Nat} (hk : k < 7) :
    argMoves cfg k (n + 1) ops =
      wrMove cfg (.arg ⟨k, hk⟩) (operandWord ops 0) :: argMoves cfg (k + 1) n ops.tail := by
  cases ops <;> exact dif_pos hk

/-- A WR while BUSY = 0 writes its register and leaves the host its later moves. -/
theorem step_wr {s : State} {r : Reg} {v : Word} {es : List HostEvent} (hb : s.busy = false)
    (hin : s.input = wrMove s.cfg r v :: es) : step s = .next (writeReg { s with input := es } r v) := by
  rw [step_idle hb, hostStep_cons hin]
  exact hostMove_store_reg { s with input := es } r v

theorem step_wr_arg {s : State} {i : Fin 7} {v : Word} {es : List HostEvent} (hb : s.busy = false)
    (hin : s.input = wrMove s.cfg (.arg i) v :: es) :
    step s = .next { s with args := s.args.set i v, input := es } :=
  (step_wr hb hin).trans (congrArg _ (if_neg (by simp [hb])))

theorem step_wr_cmd {s : State} {v : Word} {es : List HostEvent} (hb : s.busy = false)
    (hin : s.input = wrMove s.cfg .cmd v :: es) : step s = .next (State.issue { s with input := es } v) :=
  (step_wr hb hin).trans (congrArg _ (if_neg (by simp [hb])))

/-- The operand stores write one ARG register a step, those from number `k` on, and nothing else. -/
theorem run_argMoves {n k : Nat} {ops : List AsmOperand} {rest : List HostEvent} {s : State} (hk : k + n ≤ 7)
    (hb : s.busy = false) (hin : s.input = argMoves s.cfg k n ops ++ rest) :
    ∃ a : Args, Host.Core.run core n s = .next { s with args := a, input := rest } ∧
      ∀ j : Fin 7, a.get j =
        if k ≤ j.val ∧ j.val < k + n then operandWord ops (j.val - k) else s.args.get j := by
  induction n generalizing k ops s with
  | zero =>
    obtain rfl : s.input = rest := hin
    exact ⟨s.args, rfl, fun j => by rw [if_neg (by omega)]⟩
  | succ n ih =>
    have hk7 : k < 7 := by omega
    rw [argMoves_succ _ _ _ hk7, List.cons_append] at hin
    obtain ⟨a, hrun, ha⟩ := ih (k := k + 1) (ops := ops.tail) (s := { s with
      input := argMoves s.cfg (k + 1) n ops.tail ++ rest
      args := s.args.set ⟨k, hk7⟩ (operandWord ops 0) }) (by omega) hb rfl
    refine ⟨a, (run_next core (step_wr_arg hb hin)).trans hrun, fun j => ?_⟩
    rw [ha j, operandWord_tail]
    by_cases hj : j = ⟨k, hk7⟩
    · subst hj
      rw [if_neg (by simp), if_pos (by simp), Args.get_set_self, Nat.sub_self]
    · have hne : j.val ≠ k := fun he => hj (Fin.ext he)
      rw [Args.get_set_ne _ _ hj]
      by_cases hlater : k + 1 ≤ j.val ∧ j.val < k + 1 + n
      · rw [if_pos hlater, if_pos (by omega), show j.val - (k + 1) + 1 = j.val - k by omega]
      · rw [if_neg hlater, if_neg (by omega)]

theorem arity_le (i : Instr) : i.arity ≤ 7 := by
  cases i <;> decide

end Sys2Proof.Machine
end

section
/-! The statements of 30_encoding.md. -/

namespace Sys2Proof.Machine

/-- Settles O2: a row of the opcode map matches its command's own word and no other. -/
theorem decodeAndEncodeAreInverse : Obligations.DecodeAndEncodeAreInverse :=
  ⟨fun i _ => decode_encode i, fun _ _ => eq_encode_of_decode⟩

/-- Settles O3: a word that decodes to a command is that command's word, and the eight command words are the table's. -/
theorem decoderIsTheTableOnEveryWord : Obligations.DecoderIsTheTableOnEveryWord := by
  intro w
  cases hd : decode w with
  | command i =>
    obtain rfl := eq_encode_of_decode hd
    cases i <;> exact rfl
  | illegal why =>
    have hne : ∀ i, w ≠ encode i := by
      rintro i rfl
      rw [decode_encode] at hd
      cases hd
    split_ifs with h1 h2 h3 h4 h5 h6 h7 h8
    exacts [absurd h1 (hne .enum), absurd h2 (hne .issup), absurd h3 (hne .lookup), absurd h4 (hne .resolve),
      absurd h5 (hne .setvt), absurd h6 (hne .convert), absurd h7 (hne .senum), absurd h8 (hne .sissup), ⟨why, rfl⟩]

/-- Settles O6: neither kind of word is the word of a command. -/
theorem illegalWordOnlyRaisesIllegalCommand : Obligations.IllegalWordOnlyRaisesIllegalCommand := by
  intro s hb hd
  rw [step_completes hb hd]
  refine ⟨fun hrange => completePending_illegal fun i hi => ?_, fun hrsvd => completePending_illegal fun i hi => ?_⟩
  · obtain ⟨hlo, hhi, _⟩ := encode_range i
    rw [hi] at hrange
    omega
  · obtain ⟨_, _, hzero⟩ := encode_range i
    exact hrsvd (hi ▸ hzero)

/-- Settles O57: WAIT reads STATUS until the command completes, and once more after it. -/
theorem waitReturnsTheCompletedStatus : Obligations.WaitReturnsTheCompletedStatus := by
  intro s hi hb hin
  obtain ⟨v, hwait⟩ := run_wait hb rfl hin
  rw [run_add core hwait]
  have hstep : step { s with delay := 0, readData := v, input := [.wait] } = completePending _ :=
    step_completes hb rfl
  obtain ⟨t, ht, hidle, hkept⟩ | ⟨⟨hconv, hg⟩, hstop⟩ :=
    completePending_ends (s := { s with delay := 0, readData := v, input := [.wait] }) (hi.congr rfl rfl rfl rfl)
  · have hlast := step_wait_idle hidle hkept
    exact .inl ⟨_, (run_next core (hstep.trans ht)).trans (run_next core hlast), hidle, rfl, rfl⟩
  · exact .inr ⟨hconv, hg, run_refused core (hstep.trans hstop)⟩

/-- Settles O59: the operand stores, then the CMD write that issues the command's word. -/
theorem expansionIssuesTheCommandWithItsOperands : Obligations.ExpansionIssuesTheCommandWithItsOperands := by
  intro s i ops hb _ hin
  have har := arity_le i
  obtain ⟨a, hrun, ha⟩ := run_argMoves (by omega) hb hin
  have hcmd : step { s with args := a, input := [wrMove s.cfg .cmd (encode i), .wait] } =
      .next (State.issue { s with args := a, input := [.wait] } (encode i)) :=
    step_wr_cmd hb rfl
  refine ⟨_, (run_add core hrun).trans (run_next core hcmd), rfl, rfl, rfl, rfl, fun k => ?_⟩
  have hk := ha k
  simp only [Nat.zero_le, true_and, Nat.zero_add, Nat.sub_zero] at hk
  refine hk.trans ?_
  unfold operandWord
  cases ops[k.val]? <;> rfl

/-- Settles O1: the words of four commands, and five words that are no command's. -/
theorem tableWordsDecodeAndNeighboursAreIllegal : Obligations.TableWordsDecodeAndNeighboursAreIllegal :=
  ⟨decode_encode .enum, decode_encode .setvt, decode_encode .convert, decode_encode .sissup, by decide⟩

/-- Settles O5: the placed command is pending with no latency left. -/
theorem placedCommandIsRunByTheNextStep : Obligations.PlacedCommandIsRunByTheNextStep := by
  intro s i
  rw [withFetchWord_word, step_completes rfl rfl, completePending_command (decode_encode i)]

/-- Settles O58, by evaluating the expansion of the one line. -/
theorem resolveExampleExpandsAsWritten : Obligations.ResolveExampleExpandsAsWritten := by
  unfold Obligations.ResolveExampleExpandsAsWritten
  decide

end Sys2Proof.Machine
end

section
/-! SUPPORT. The registry by position and by identifier (40_registry.md R100), and what its five commands answer. -/

namespace Sys2Proof.Machine

/-! ### The entries of the ROM -/

/-- The identifiers are pairwise distinct, so an entry is found by its own (40_registry.md R100). -/
theorem entryOf_of_mem : ∀ e ∈ rom, entryOf e.id = some e := by
  decide

/-- `Kernel(id) = Index(id)`: an entry's kernel tag is its position (40_registry.md R100). -/
theorem kernel_tag_eq_index {k : Nat} {e : RegistryEntry} (h : rom[k]? = some e) : e.kernel.tag.toNat = k := by
  have hall : ∀ k : Fin rom.length, rom[k].kernel.tag.toNat = k := by decide
  obtain ⟨hk, rfl⟩ := List.getElem?_eq_some_iff.1 h
  exact hall ⟨k, hk⟩

/-- The registered identifiers are those of the spec's table (10_state.md R33). -/
theorem registered_iff_mem_pfcFormats (id : Word) : registered id = true ↔ id ∈ pfcFormats.map (·.1) := by
  have hids : pfcFormats.map (·.1) = rom.map RegistryEntry.id := rfl
  simp [hids, registered]

/-! ### What the commands answer -/

/-- A completion whose result is a register word returns that word. -/
theorem State.complete_zext32 (s : State) (w : Word) :
    s.complete (zext32 w) = { s with code := .ok, result0 := w, busy := false } := by
  have hw : low32 (zext32 w) = w := by
    rw [low32, zext32, BitVec.ofInt_natCast, BitVec.ofNat_toNat, BitVec.setWidth_eq]
  rw [State.complete, hw]

theorem exec_enumerate {i : Instr} (hi : i = .enum ∨ i = .senum) (s : State) : exec i s = .next (enumerate s) := by
  obtain rfl | rfl := hi <;> rfl

theorem enumerate_of_entry {s : State} {e : RegistryEntry} (h : rom[zext32 s.latched.arg0]? = some e) :
    enumerate s = s.complete (zext32 e.id) := by
  rw [enumerate, h]

theorem enumerate_of_none {s : State} (h : rom[zext32 s.latched.arg0]? = none) :
    enumerate s = s.raise .noMoreFormats := by
  rw [enumerate, h]

theorem exec_isSupported {i : Instr} (hi : i = .issup ∨ i = .sissup) (s : State) :
    exec i s = .next (s.complete (if registered s.latched.arg0 then 1 else 0)) := by
  obtain rfl | rfl := hi <;> rfl

theorem exec_lookup_of_entry {s : State} {e : RegistryEntry} (h : entryOf s.latched.arg0 = some e) :
    exec .lookup s = .next (s.complete e.kernel.tag.toNat) := by
  rw [exec, execLookup, h]

theorem exec_lookup_of_none {s : State} (h : entryOf s.latched.arg0 = none) :
    exec .lookup s = .next (s.raise .unsupportedFormat) := by
  rw [exec, execLookup, h]

end Sys2Proof.Machine
end

section
/-! The statements of 40_registry.md. -/

namespace Sys2Proof.Machine

/-- Settles O20: the four positions hold the four identifiers, and the ROM ends there. -/
theorem enumerationReturnsTheRegistryInOrder : Obligations.EnumerationReturnsTheRegistryInOrder := by
  intro i hi s
  rw [exec_enumerate hi]
  refine ⟨fun k id hmem hk => ?_, fun h4 => ?_⟩
  · have hrows : ∀ p ∈ [(0, 0x00000016#32), (1, 0x00000014#32), (2, 0x32595559#32), (3, 0x3231564E#32)],
        rom[p.1]?.map RegistryEntry.id = some p.2 := by decide
    obtain ⟨e, he, rfl⟩ := Option.map_eq_some_iff.1 (hrows (k, id) hmem)
    have hat : rom[zext32 s.latched.arg0]? = some e := by rw [zext32, hk, he]
    rw [enumerate_of_entry hat, State.complete_zext32]
  · have hpast : rom[zext32 s.latched.arg0]? = none := List.getElem?_eq_none h4
    rw [enumerate_of_none hpast, State.raise]

/-- Settles O21: an identifier is registered when it is in the spec's table. -/
theorem membershipTestAnswersOneOrZero : Obligations.MembershipTestAnswersOneOrZero := by
  intro i hi s
  rw [exec_isSupported hi, ← registered_iff_mem_pfcFormats]
  refine ⟨fun hreg => ?_, fun hunreg => ?_⟩
  · rw [if_pos hreg]
    rfl
  · rw [if_neg hunreg]
    rfl

/-- Settles O22: each identifier finds its own entry, any other word none. -/
theorem lookupReturnsTheKernelTag : Obligations.LookupReturnsTheKernelTag := by
  intro s
  refine ⟨fun id tag hmem hid => ?_, fun hnot => ?_⟩
  · have hrows : [(0x00000016#32, 0#32), (0x00000014#32, 1#32), (0x32595559#32, 2#32), (0x3231564E#32, 3#32)] =
        rom.map (fun e => (e.id, low32 e.kernel.tag.toNat)) := rfl
    rw [hrows] at hmem
    obtain ⟨e, he, heq⟩ := List.mem_map.1 hmem
    obtain ⟨rfl, rfl⟩ := Prod.mk.inj heq
    have hentry : entryOf s.latched.arg0 = some e := hid ▸ entryOf_of_mem e he
    rw [exec_lookup_of_entry hentry, State.complete]
  · have hunreg : registered s.latched.arg0 = false := by
      rwa [← registered_iff_mem_pfcFormats, Bool.not_eq_true] at hnot
    rw [exec_lookup_of_none (entryOf_eq_none.2 hunreg), State.raise]

/-- Settles O23: the identifier returned is that of the entry at the index, so ISSUP and LOOKUP find that entry, whose
kernel tag is its position. -/
theorem enumeratedFormatsAreSupportedAndIndexed : Obligations.EnumeratedFormatsAreSupportedAndIndexed := by
  intro s t h hok
  obtain rfl : enumerate s = t := Host.Outcome.next.inj h
  cases he : rom[zext32 s.latched.arg0]? with
  | none =>
    rw [enumerate_of_none he] at hok
    cases hok
  | some e =>
    rw [enumerate_of_entry he, State.complete_zext32]
    have hentry : entryOf e.id = some e := entryOf_of_mem e (List.mem_of_getElem? he)
    have hreg : registered e.id = true := registered_iff.2 ⟨e, hentry⟩
    refine ⟨⟨_, exec_isSupported (.inl rfl) _, rfl, ?_⟩, ⟨_, exec_lookup_of_entry hentry, rfl, ?_⟩⟩
    · rw [if_pos hreg]
      rfl
    · rw [kernel_tag_eq_index he, State.complete_zext32]

end Sys2Proof.Machine
end

section
/-! SUPPORT. When the stride resolver answers and what (41_stride_resolver.md R121), and what RESOLVE makes of it. -/

namespace Sys2Proof.Machine

/-- Each row of the spec's table is the registry's entry of its identifier (10_state.md R33). -/
theorem entryOf_of_mem_pfcFormats {id : Word} {b : Nat} {k : Kernel} (h : (id, b, k) ∈ pfcFormats) :
    entryOf id = some ⟨id, b, k⟩ := by
  have hrows : pfcFormats = rom.map (fun e => (e.id, e.bpp, e.kernel)) := rfl
  rw [hrows] at h
  obtain ⟨e, he, heq⟩ := List.mem_map.1 h
  cases heq
  exact entryOf_of_mem e he

/-- The subsampled formats are those of at most two bytes per pixel (41_stride_resolver.md R120). -/
theorem subsampled_iff_bpp_le_two {id : Word} {e : RegistryEntry} (h : entryOf id = some e) :
    subsampled id = true ↔ e.bpp ≤ 2 := by
  obtain ⟨rfl, rfl⟩ | ⟨rfl, rfl⟩ | ⟨rfl, rfl⟩ | ⟨rfl, rfl⟩ := entryOf_cases h <;> decide

/-- The width checks of `ResolveStride` for a format of `b` bytes per pixel (41_stride_resolver.md R121). -/
def WidthOk (cfg : Config) (b w : Nat) : Prop :=
  1 ≤ w ∧ w ≤ cfg.maxDim ∧ (b ≤ 2 → w % 2 = 0)

theorem not_widthOk {cfg : Config} {b w : Nat} (h : w = 0 ∨ cfg.maxDim < w ∨ (b ≤ 2 ∧ w % 2 = 1)) :
    ¬ WidthOk cfg b w := by
  unfold WidthOk
  omega

/-- A good width gets the explicit stride, or the least one when there is none. -/
theorem resolveStride_of_widthOk {cfg : Config} {id : Word} {e : RegistryEntry} {w : Nat}
    (he : entryOf id = some e) (hw : WidthOk cfg e.bpp w) (x : Int) :
    resolveStride cfg id w x = some (if x = 0 then (e.bpp * w : Int) else x) := by
  obtain ⟨hpos, hmax, heven⟩ := hw
  have hodd : ¬ (subsampled id && !even w) = true := by
    simpa [even, subsampled_iff_bpp_le_two he] using heven
  simp only [resolveStride, he]
  rw [if_neg (Nat.ne_of_gt hpos), if_neg (Nat.not_lt.2 hmax), if_neg hodd, ite_not, apply_ite some]

/-- An unregistered identifier or a bad width is an error, whatever the explicit stride. -/
theorem resolveStride_eq_none {cfg : Config} {id : Word} {w : Nat}
    (h : ∀ e, entryOf id = some e → ¬ WidthOk cfg e.bpp w) (x : Int) : resolveStride cfg id w x = none := by
  rw [Option.eq_none_iff_forall_ne_some]
  intro r hr
  obtain ⟨e, he, hpos, hmax, heven, _⟩ := resolveStride_some hr
  refine h e he ⟨Nat.pos_of_ne_zero hpos, hmax, fun hb => ?_⟩
  simpa [even] using heven ((subsampled_iff_bpp_le_two he).2 hb)

/-- The resolver reads nothing of the parameters but MAX_DIM (41_stride_resolver.md R121). -/
theorem resolveStride_congr {cfg cfg' : Config} (h : cfg.maxDim = cfg'.maxDim) (id : Word) (w : Nat) (x : Int) :
    resolveStride cfg id w x = resolveStride cfg' id w x := by
  simp only [resolveStride, h]

/-- What RESOLVE asks of the resolver (41_stride_resolver.md R122). -/
def State.resolved (s : State) : Option Int :=
  resolveStride s.cfg s.latched.arg0 (zext32 s.latched.arg1) (sext32 s.latched.arg2)

theorem exec_resolve (s : State) :
    exec .resolve s = .next (s.resolved.elim (s.raise .geometryError) s.complete) := by
  rw [exec, execResolve, ← State.resolved]
  cases s.resolved with
  | none => rfl
  | some r => rfl

/-- The resolved stride as RESULT0 takes it: an explicit one comes back as its own word. -/
theorem low32_resolvedStride (x : Word) (n : Nat) :
    low32 (if sext32 x = 0 then (n : Int) else sext32 x) = if x = 0#32 then BitVec.ofNat 32 n else x := by
  have hzero : sext32 x = 0 ↔ x = 0#32 := BitVec.toInt_inj (y := 0#32)
  simp only [hzero]
  split
  · exact BitVec.ofInt_natCast 32 n
  · exact BitVec.ofInt_toInt

end Sys2Proof.Machine
end

section
/-! The statements of 41_stride_resolver.md. -/

namespace Sys2Proof.Machine

/-- Settles O24: the resolver's answer to a good width, and its error on any other. -/
theorem resolveComputesOrRejectsTheStride : Obligations.ResolveComputesOrRejectsTheStride := by
  intro s
  have hreject (h : ∀ e, entryOf s.latched.arg0 = some e → ¬ WidthOk s.cfg e.bpp s.latched.arg1.toNat) :
      exec .resolve s = .next { s with code := .geometryError, result0 := 0#32, busy := false } := by
    have hnone : s.resolved = none := resolveStride_eq_none h _
    rw [exec_resolve, hnone, Option.elim_none, State.raise]
  refine ⟨?_, fun hnot => hreject fun e he => ?_⟩
  · rintro _ b k hmem rfl
    have hentry := entryOf_of_mem_pfcFormats hmem
    refine ⟨fun hpos hmax heven => ?_, fun hbad => hreject fun e he => ?_⟩
    · have hres : s.resolved = some _ := resolveStride_of_widthOk hentry ⟨hpos, hmax, heven⟩ _
      rw [exec_resolve, hres, Option.elim_some, State.complete, ← Nat.cast_mul, low32_resolvedStride]
    · obtain rfl := Option.some.inj (hentry.symm.trans he)
      exact not_widthOk hbad
  · exact absurd ((registered_iff_mem_pfcFormats _).1 (registered_iff.2 ⟨e, he⟩)) hnot

/-- Settles O25: RESOLVE's answer is a function of what the resolver is asked. -/
theorem resolveDependsOnlyOnItsOperands : Obligations.ResolveDependsOnlyOnItsOperands := by
  intro s s' hmax h0 h1 h2
  have hres : s.resolved = s'.resolved := by
    rw [State.resolved, State.resolved, h0, h1, h2, resolveStride_congr hmax]
  refine ⟨_, _, exec_resolve s, exec_resolve s', ?_⟩
  rw [hres]
  cases s'.resolved with
  | none => exact ⟨rfl, rfl⟩
  | some r => exact ⟨rfl, rfl⟩

end Sys2Proof.Machine
end

section
/-! SUPPORT. The colour math on integers (42_kernels.md R140, R141), the destination a CONVERT leaves pixel by pixel, and
the session registers its kernel does not read (R148). -/

namespace Sys2Proof.Machine

/-! ### Colour math -/

theorem clip_toNat (v : Int) : ((clip v).toNat : Int) = max 0 (min 255 v) := by
  have hlt : (max 0 (min 255 v)).toNat < 2 ^ 8 := by omega
  rw [clip, BitVec.toNat_ofNat, Nat.mod_eq_of_lt hlt, Int.toNat_of_nonneg (le_max_left _ _)]

theorem clip_of_nonpos {v : Int} (h : v ≤ 0) : clip v = 0#8 := by
  rw [clip, max_eq_left (min_le_of_right_le h)]
  rfl

/-- The shift of `YCC` is the floor of a division by 256 (00_scope.md R9). -/
theorem asr_eight (v : Int) : asr v 8 = v / 256 := rfl

/-- A sum that is not negative is divided alike; a negative one is clipped to 0 either way (42_kernels.md R143). -/
theorem clip_tdiv (v : Int) : clip (v.tdiv 256) = clip (asr v 8) := by
  rw [asr_eight]
  by_cases h : 0 ≤ v
  · rw [Int.tdiv_eq_ediv_of_nonneg h]
  · have htrunc : v.tdiv 256 ≤ 0 := by
      rw [← neg_neg v, Int.neg_tdiv]
      exact neg_nonpos.2 (Int.tdiv_nonneg (by omega) (by decide))
    have hfloor : v / 256 ≤ 0 := by omega
    rw [clip_of_nonpos htrunc, clip_of_nonpos hfloor]

/-- A clipped channel as an integer (42_kernels.md R140). -/
theorem clip_asr_toNat (v : Int) : ((clip (asr v 8)).toNat : Int) = max 0 (min 255 (v / 256)) :=
  clip_toNat _

/-! ### The pixels a CONVERT leaves -/

/-- The window holds a pixel at an offset: bytes B, G, R, 0 (42_kernels.md R146). -/
def Window.HoldsPixel (w : Window) (off : Nat) (c : Rgb) : Prop :=
  w.read off = c.b ∧ w.read (off + 1) = c.g ∧ w.read (off + 2) = c.r ∧ w.read (off + 3) = 0#8

/-- A pixel is held where its four bytes stand in the order of PutPixel. -/
theorem Window.holdsPixel_of_bytes {w : Window} {off : Nat} {c : Rgb}
    (h : ∀ k, k < 4 → w.read (off + k) = pixelByte c k) : w.HoldsPixel off c :=
  ⟨h 0 (by decide), h 1 (by decide), h 2 (by decide), h 3 (by decide)⟩

theorem pixelVal_add (px : Nat → Nat → Rgb) (i x : Nat) {k : Nat} (hk : k < 4) :
    pixelVal px i (4 * x + k) = pixelByte (px i x) k := by
  rw [pixelVal, show (4 * x + k) / 4 = x by omega, show (4 * x + k) % 4 = k by omega]

/-- The colour of pixel x of image row i under RGB24 widening (42_kernels.md R152). -/
def rgb24Pixel (g : Geom) (m : Memory) (i x : Nat) : Rgb :=
  ⟨memRead m (g.srcRow i + 3 * x), memRead m (g.srcRow i + 3 * x + 1), memRead m (g.srcRow i + 3 * x + 2)⟩

section
variable {g : Geom} (m : Memory)

theorem kernelByte_passthrough (hk : g.kernel = .passthrough) (i b : Nat) :
    kernelByte g m i b = memRead m (g.srcRow i + b) := by
  rw [kernelByte, hk]

theorem kernelByte_rgb24 (hk : g.kernel = .rgb24) : kernelByte g m = pixelVal (rgb24Pixel g m) := by
  rw [kernelByte, hk]
  rfl

theorem kernelByte_yuv422 (hk : g.kernel = .yuv422) : kernelByte g m = pixelVal (yuv422Pixel g m) := by
  rw [kernelByte, hk]

theorem kernelByte_yuv420 (hk : g.kernel = .yuv420) : kernelByte g m = pixelVal (yuv420Pixel g m) := by
  rw [kernelByte, hk]

/-- The colour of pixel n of pair p (42_kernels.md R154, R155). -/
theorem yuv422Pixel_pair (i p : Nat) {n : Nat} (hn : n < 2) :
    yuv422Pixel g m i (2 * p + n) =
      ycc (memRead m (g.srcRow i + 4 * p + 2 * n)) (memRead m (g.srcRow i + 4 * p + 1))
        (memRead m (g.srcRow i + 4 * p + 3)) := by
  rw [yuv422Pixel, show (2 * p + n) / 2 = p by omega, show (2 * p + n) % 2 = n by omega]

/-- The colour of sample (r, n) of the 2x2 block (j, p) (42_kernels.md R157, R158). -/
theorem yuv420Pixel_block (j p : Nat) {r n : Nat} (hr : r < 2) (hn : n < 2) :
    yuv420Pixel g m (2 * j + r) (2 * p + n) =
      ycc (memRead m (g.srcRow (2 * j + r) + (2 * p + n))) (memRead m (g.chromaRow j + 2 * p))
        (memRead m (g.chromaRow j + 2 * p + 1)) := by
  rw [yuv420Pixel, show (2 * j + r) / 2 = j by omega, show (2 * p + n) / 2 = p by omega]

end

variable {s : State}

/-- A CONVERT that executes normally completes with OK and leaves the kernel's value in every active destination
byte. -/
theorem ConvertReady.paints (hr : ConvertReady s) (hi : s.Inv) :
    ∃ t, exec .convert s = .next t ∧ t.code = .ok ∧ ∀ i b, i < s.geom.h → b < 4 * s.geom.w →
      t.dst.read (s.geom.dstRow i + b) = kernelByte s.geom s.src.bytes i b := by
  obtain ⟨q, _, hp, ht⟩ := hr.runs hi
  exact ⟨_, ht, rfl, fun i b hib hb => hp.hit i b hib hb trivial⟩

/-- With a kernel that writes pixel by pixel, every pixel of the destination frame is the kernel's. -/
theorem ConvertReady.paints_pixels (hr : ConvertReady s) (hi : s.Inv) {px : Nat → Nat → Rgb}
    (hpx : kernelByte s.geom s.src.bytes = pixelVal px) :
    ∃ t, exec .convert s = .next t ∧ t.code = .ok ∧ ∀ i x, i < s.geom.h → x < s.geom.w →
      t.dst.HoldsPixel (s.geom.dstRow i + 4 * x) (px i x) := by
  obtain ⟨t, ht, hok, hbyte⟩ := hr.paints hi
  refine ⟨t, ht, hok, fun i x hih hx => Window.holdsPixel_of_bytes fun k hk => ?_⟩
  rw [Nat.add_assoc, hbyte i (4 * x + k) hih (by omega), hpx, pixelVal_add px i x hk]

/-! ### The session registers a CONVERT does not read -/

/-- The state with its session registers changed by `f`. -/
def State.mapSession (f : Session → Session) (s : State) : State := { s with session := f s.session }

/-- The session with other hints: interlace mode and pixel aspect ratio (10_state.md R26). -/
def Session.withHints (il : BitVec 1) (pn pd : Word) (ss : Session) : Session :=
  { ss with interlace := il, parNum := pn, parDen := pd }

/-- The checks and the geometry of a CONVERT take no hint (43_session.md R185). -/
theorem convertCheck_withHints (il : BitVec 1) (pn pd : Word) (ss : Session) (a : Args) :
    convertCheck (ss.withHints il pn pd) a = convertCheck ss a := rfl

/-- Once its checks have passed, a CONVERT reads and writes no session register. -/
theorem convertFrame_mapSession (f : Session → Session) (g : Geom) (s : State) :
    convertFrame g (s.mapSession f) = mapNext (State.mapSession f) (convertFrame g s) := by
  have hbound : (s.mapSession f).windowsBound g = s.windowsBound g := rfl
  have hports : (s.mapSession f).ports g = s.ports g := rfl
  have hdist : (s.mapSession f).disturbed = s.disturbed := rfl
  unfold convertFrame
  rw [hbound, hports, hdist]
  split
  · cases runKernel g (s.ports g) with
    | none => rfl
    | some p => cases s.disturbed <;> rfl
  · rfl

/-- Other hints go through a CONVERT untouched (42_kernels.md R148). -/
theorem exec_convert_withHints (il : BitVec 1) (pn pd : Word) (s : State) :
    exec .convert (s.mapSession (.withHints il pn pd)) =
      mapNext (State.mapSession (.withHints il pn pd)) (exec .convert s) := by
  have hcheck : convertCheck (s.mapSession (.withHints il pn pd)).session (s.mapSession (.withHints il pn pd)).latched =
      convertCheck s.session s.latched := convertCheck_withHints il pn pd _ _
  simp only [exec, execConvert, hcheck]
  cases convertCheck s.session s.latched with
  | raises x => rfl
  | unregistered => rfl
  | runs g => exact convertFrame_mapSession _ g s

end Sys2Proof.Machine
end

section
/-! The statements of 42_kernels.md. -/

namespace Sys2Proof.Machine

/-- Settles O34: the passthrough kernel's byte is the source byte at the same place of the same row. -/
theorem passthroughCopiesEveryActiveByte : Obligations.PassthroughCopiesEveryActiveByte := by
  intro s hi hr hk
  obtain ⟨t, ht, hok, hbyte⟩ := hr.paints hi
  refine ⟨t, ht, hok, fun i b hih hb => ?_⟩
  exact (hbyte i b hih hb).trans (kernelByte_passthrough _ hk i b)

/-- Settles O35, pixel by pixel. -/
theorem rgb24PixelsAreWidened : Obligations.Rgb24PixelsAreWidened := by
  intro s hi hr hk
  exact hr.paints_pixels hi (kernelByte_rgb24 _ hk)

/-- Settles O36: pixel n of pair p is pixel 2p + n of its row. -/
theorem yuv422PairsAreDecoded : Obligations.Yuv422PairsAreDecoded := by
  intro s hi hr hk
  obtain ⟨t, ht, hok, hpixel⟩ := hr.paints_pixels hi (kernelByte_yuv422 _ hk)
  refine ⟨t, ht, hok, fun i p n hih hp hn => ?_⟩
  have h := hpixel i (2 * p + n) hih (by omega)
  rw [yuv422Pixel_pair _ i p hn, show s.geom.dstRow i + 4 * (2 * p + n) = s.geom.dstRow i + 8 * p + 4 * n by ring] at h
  exact h

/-- Settles O37: sample (m, n) of block (j, p) is pixel 2p + n of row 2j + m. -/
theorem yuv420BlocksAreDecoded : Obligations.Yuv420BlocksAreDecoded := by
  intro s hi hr hk
  obtain ⟨t, ht, hok, hpixel⟩ := hr.paints_pixels hi (kernelByte_yuv420 _ hk)
  refine ⟨t, ht, hok, fun j p m n hj hp hm hn => ?_⟩
  have h := hpixel (2 * j + m) (2 * p + n) (by omega) (by omega)
  rw [yuv420Pixel_block _ j p hm hn,
    show s.geom.dstRow (2 * j + m) + 4 * (2 * p + n) = s.geom.dstRow (2 * j + m) + 8 * p + 4 * n by ring] at h
  exact h

/-- Settles O42: the hints go through the checks and the kernel untouched. -/
theorem interlaceAndAspectRatioNeverMatter : Obligations.InterlaceAndAspectRatioNeverMatter := by
  intro s t il pn pd ht
  have h := exec_convert_withHints il pn pd s
  rw [ht] at h
  exact h

/-- Settles O44: each channel is its clipped sum, and the clip is exact. -/
theorem colourMathIsTheMatrixClipped : Obligations.ColourMathIsTheMatrixClipped :=
  ⟨fun _ _ _ => ⟨clip_asr_toNat _, clip_asr_toNat _, clip_asr_toNat _⟩, clip_toNat⟩

/-- Settles O45: the two roundings agree after the clip for every sum, whatever its range. -/
theorem roundingOfTheShiftIsIrrelevant : Obligations.RoundingOfTheShiftIsIrrelevant :=
  fun _ _ _ => ⟨clip_tdiv _, clip_tdiv _, clip_tdiv _⟩

/-- Settles O46, sum by sum, from the range of a byte; the extremes are those of the blue sum. -/
theorem colourSumsFitNineteenBits : Obligations.ColourSumsFitNineteenBits := by
  intro y cb cr v hv
  have hy := y.isLt
  have hcb := cb.isLt
  have hcr := cr.isLt
  obtain rfl | rfl | rfl := hv
  · exact ⟨.inl rfl, by omega⟩
  · exact ⟨.inr (.inl rfl), by omega⟩
  · exact ⟨.inr (.inr rfl), by omega⟩

end Sys2Proof.Machine
end

section
/-! SUPPORT. What SETVT's checks ask and what it stores (43_session.md R181 to R184), and which status the checks of CONVERT
come to (R185 to R187, R190). -/

namespace Sys2Proof.Machine

/-! ### SETVT -/

/-- NV12 is the one format of one byte per pixel (41_stride_resolver.md R120). -/
theorem eq_fmtNv12_iff_bpp_eq_one {id : Word} {e : RegistryEntry} (h : entryOf id = some e) :
    id = fmtNv12 ↔ e.bpp = 1 := by
  obtain ⟨rfl, rfl⟩ | ⟨rfl, rfl⟩ | ⟨rfl, rfl⟩ | ⟨rfl, rfl⟩ := entryOf_cases h <;> decide

theorem low32_zext32 (w : Word) : low32 (zext32 w) = w := by
  rw [low32, zext32, BitVec.ofInt_natCast, BitVec.ofNat_toNat, BitVec.setWidth_eq]

theorem interlaceHint_of_le {il : Nat} (h : il ≤ 2) :
    interlaceHint il = some (if il = 2 then 1#1 else 0#1) := by
  rw [interlaceHint, if_neg (Nat.not_lt.2 h), apply_ite some]

theorem parHint_eq (pn pd : Word) :
    parHint pn pd = (if pn = 0#32 ∨ pd = 0#32 then 1#32 else pn, if pn = 0#32 ∨ pd = 0#32 then 1#32 else pd) := by
  unfold parHint
  split <;> rfl

/-- The stride SETVT works with: the hint, or the least one when the hint is 0 (43_session.md R181). -/
def setvtStride (b : Nat) (a : Args) : Int :=
  if sext32 a.arg3 = 0 then (b * zext32 a.arg1 : Int) else sext32 a.arg3

/-- The checks of SETVT for a format of `b` bytes per pixel (43_session.md R181, R183). -/
structure SetvtOk (cfg : Config) (b : Nat) (a : Args) : Prop where
  width      : WidthOk cfg b (zext32 a.arg1)
  heightPos  : 1 ≤ zext32 a.arg2
  heightMax  : zext32 a.arg2 ≤ cfg.maxDim
  heightEven : b = 1 → zext32 a.arg2 % 2 = 0
  stride     : b * zext32 a.arg1 ≤ (setvtStride b a).natAbs
  interlace  : zext32 a.arg4 ≤ 2

/-- The session SETVT stores for the entry of its identifier (43_session.md R181, R183, R184). -/
def setvtSession (e : RegistryEntry) (a : Args) : Session :=
  { valid := true
    format := a.arg0
    kernel := e.kernel
    width := a.arg1
    height := a.arg2
    srcStride := low32 (setvtStride e.bpp a)
    dstStride := BitVec.ofNat 32 (4 * zext32 a.arg1)
    interlace := if zext32 a.arg4 = 2 then 1#1 else 0#1
    parNum := if a.arg5 = 0#32 ∨ a.arg6 = 0#32 then 1#32 else a.arg5
    parDen := if a.arg5 = 0#32 ∨ a.arg6 = 0#32 then 1#32 else a.arg6 }

section
variable {cfg : Config} {a : Args} {e : RegistryEntry}

theorem resolveStride_of_setvtOk (he : entryOf a.arg0 = some e) (hok : SetvtOk cfg e.bpp a) :
    resolveStride cfg a.arg0 (zext32 a.arg1) (sext32 a.arg3) = some (setvtStride e.bpp a) :=
  resolveStride_of_widthOk he hok.width _

theorem negotiate_of_unregistered (he : entryOf a.arg0 = none) :
    negotiate cfg a = .raises .unsupportedFormat := by
  simp only [negotiate, he]

/-- When every check passes, SETVT stores the whole session. -/
theorem negotiate_of_setvtOk (he : entryOf a.arg0 = some e) (hok : SetvtOk cfg e.bpp a) :
    negotiate cfg a = .stores (setvtSession e a) (setvtStride e.bpp a) := by
  have hres := resolveStride_of_setvtOk he hok
  have hheight : ¬ (zext32 a.arg2 = 0 ∨ cfg.maxDim < zext32 a.arg2) :=
    not_or.2 ⟨Nat.ne_of_gt hok.heightPos, Nat.not_lt.2 hok.heightMax⟩
  have hodd : ¬ (a.arg0 = fmtNv12 ∧ ¬ even (zext32 a.arg2)) := by
    simpa [even, eq_fmtNv12_iff_bpp_eq_one he] using hok.heightEven
  have hwide : ¬ (setvtStride e.bpp a).natAbs < e.bpp * zext32 a.arg1 := Nat.not_lt.2 hok.stride
  have hdst : low32 (4 * zext32 a.arg1) = BitVec.ofNat 32 (4 * zext32 a.arg1) := BitVec.ofInt_natCast 32 _
  simp only [negotiate, he, hres, if_neg hheight, if_neg hodd, if_neg hwide, interlaceHint_of_le hok.interlace,
    low32_zext32, hdst, parHint_eq, setvtSession]

/-- When a check fails on a registered identifier, SETVT raises GEOMETRY_ERROR. -/
theorem negotiate_of_not_setvtOk (he : entryOf a.arg0 = some e) (hbad : ¬ SetvtOk cfg e.bpp a) :
    negotiate cfg a = .raises .geometryError := by
  by_cases hw : WidthOk cfg e.bpp (zext32 a.arg1)
  · have hres : resolveStride cfg a.arg0 (zext32 a.arg1) (sext32 a.arg3) = some (setvtStride e.bpp a) :=
      resolveStride_of_widthOk he hw _
    simp only [negotiate, he, hres]
    split_ifs with hheight hodd hwide
    · rfl
    · rfl
    · rfl
    · have hil : 2 < zext32 a.arg4 := by
        by_contra hil
        refine hbad ⟨hw, by omega, by omega, ?_, by omega, by omega⟩
        simpa [even, eq_fmtNv12_iff_bpp_eq_one he] using hodd
      rw [interlaceHint, if_pos hil]
  · have hnone : resolveStride cfg a.arg0 (zext32 a.arg1) (sext32 a.arg3) = none :=
      resolveStride_eq_none (fun e' he' => Option.some.inj (he.symm.trans he') ▸ hw) _
    simp only [negotiate, he, hnone]

end

section
variable {s : State}

theorem exec_setvt_of_raises {x : Status} (h : negotiate s.cfg s.latched = .raises x) :
    exec .setvt s = .next (s.raise x) := by
  rw [exec, execSetvt, h]

theorem exec_setvt_of_stores {ss : Session} {r : Int} (h : negotiate s.cfg s.latched = .stores ss r) :
    exec .setvt s = .next ({ s with session := ss }.complete r) := by
  rw [exec, execSetvt, h]

/-- A SETVT that completes with OK passed every check, and stored the session they let through. -/
theorem setvtOk_of_exec {t : State} (h : exec .setvt s = .next t) (hok : t.code = .ok) :
    ∃ e, entryOf s.latched.arg0 = some e ∧ SetvtOk s.cfg e.bpp s.latched ∧
      t = { s with session := setvtSession e s.latched }.complete (setvtStride e.bpp s.latched) := by
  have hraise {x : Status} (hx : negotiate s.cfg s.latched = .raises x) : x = .ok := by
    rw [exec_setvt_of_raises hx] at h
    obtain rfl := Host.Outcome.next.inj h
    exact hok
  cases he : entryOf s.latched.arg0 with
  | none => cases hraise (negotiate_of_unregistered he)
  | some e =>
    by_cases hchecks : SetvtOk s.cfg e.bpp s.latched
    · rw [exec_setvt_of_stores (negotiate_of_setvtOk he hchecks)] at h
      exact ⟨e, rfl, hchecks, (Host.Outcome.next.inj h).symm⟩
    · cases hraise (negotiate_of_not_setvtOk he hchecks)

/-! ### CONVERT -/

theorem exec_convert_of_raises {x : Status} (h : convertCheck s.session s.latched = .raises x) :
    exec .convert s = .next (s.raise x) := by
  rw [exec, execConvert, h]

/-- The stride in force: the operand, unless it is 0 (30_encoding.md R74). -/
theorem strideOr_eq (w : Word) (other : Int) : strideOr w other = if w = 0#32 then other else w.toInt := by
  have hzero : sext32 w = 0 ↔ w = 0#32 := BitVec.toInt_inj (y := 0#32)
  simp only [strideOr, ne_eq, hzero, ite_not]
  rfl

/-- The source length a CONVERT needs, with the extra chroma rows of 4:2:0 (20_memory.md R57). -/
theorem Geom.srcBytes_eq (g : Geom) :
    g.srcBytes = g.h * g.s.natAbs + (if g.kernel = .yuv420 then g.h / 2 * g.s.natAbs else 0) := by
  cases hk : g.kernel <;> simp [Geom.srcBytes, hk]

end

section
variable {ss : Session} {a : Args} {e : RegistryEntry}

/-- A stride in force that is too small raises GEOMETRY_ERROR (43_session.md R186). -/
theorem convertCheck_of_narrow (hv : ss.valid = true) (he : entryOf ss.format = some e)
    (h : (convertGeom ss a).s.natAbs < e.bpp * (convertGeom ss a).w ∨
      (convertGeom ss a).d.natAbs < 4 * (convertGeom ss a).w) :
    convertCheck ss a = .raises .geometryError := by
  simp only [convertCheck, hv, Bool.true_eq_false, if_false, he]
  obtain hs | hd := h
  · rw [if_pos hs]
  · rw [if_pos hd, ite_self]

/-- With strides that are wide enough, a window that is too short raises BUFFER_ERROR (43_session.md R187). -/
theorem convertCheck_of_short (hv : ss.valid = true) (he : entryOf ss.format = some e)
    (hs : e.bpp * (convertGeom ss a).w ≤ (convertGeom ss a).s.natAbs)
    (hd : 4 * (convertGeom ss a).w ≤ (convertGeom ss a).d.natAbs)
    (h : (convertGeom ss a).srcLen < srcNeed ss.format (convertGeom ss a).h (convertGeom ss a).s ∨
      (convertGeom ss a).dstLen < (convertGeom ss a).dstBytes) :
    convertCheck ss a = .raises .bufferError := by
  simp only [convertCheck, hv, Bool.true_eq_false, if_false, he, if_neg (Nat.not_lt.2 hs), if_neg (Nat.not_lt.2 hd)]
  obtain hsrc | hdst := h
  · rw [if_pos hsrc]
  · rw [← Geom.dstBytes, if_pos hdst, ite_self]

end

end Sys2Proof.Machine
end

section
/-! The statements of 43_session.md. -/

namespace Sys2Proof.Machine

/-- Settles O26: the registered formats by whether every check passes, and the unregistered ones. -/
theorem setvtStoresTheWholeSessionOrRaises : Obligations.SetvtStoresTheWholeSessionOrRaises := by
  intro s
  refine ⟨?_, fun hnot => ?_⟩
  · rintro _ b k r hmem rfl hr
    have hentry := entryOf_of_mem_pfcFormats hmem
    obtain rfl : r = setvtStride b s.latched := by rw [hr, Nat.cast_mul]; rfl
    refine ⟨fun hw hwmax hh hhmax hweven hheven hstride hil => ?_, fun hbad => ?_⟩
    · have hok : SetvtOk s.cfg b s.latched := ⟨⟨hw, hwmax, hweven⟩, hh, hhmax, hheven, hstride, hil⟩
      exact exec_setvt_of_stores (negotiate_of_setvtOk hentry hok)
    · have hnot : ¬ SetvtOk s.cfg b s.latched := by
        rintro ⟨⟨hw, hwmax, hweven⟩, hh, hhmax, hheven, hstride, hil⟩
        simp only [zext32] at hw hwmax hweven hh hhmax hheven hstride hil
        omega
      exact exec_setvt_of_raises (negotiate_of_not_setvtOk hentry hnot)
  · have hnone : entryOf s.latched.arg0 = none := by
      rwa [← registered_iff_mem_pfcFormats, Bool.not_eq_true, ← entryOf_eq_none] at hnot
    exact exec_setvt_of_raises (negotiate_of_unregistered hnone)

/-- Settles O28: SETVT and RESOLVE ask the same of the resolver. -/
theorem setvtStrideIsResolveStride : Obligations.SetvtStrideIsResolveStride := by
  intro s t h hok
  obtain ⟨e, he, hchecks, rfl⟩ := setvtOk_of_exec h hok
  have hstride := resolveStride_of_setvtOk he hchecks
  have hres : State.resolved { s with latched := { s.latched with arg2 := s.latched.arg3 } } = some _ := hstride
  refine ⟨rfl, _, exec_resolve _, ?_⟩
  rw [hres]
  exact ⟨rfl, rfl⟩

/-- Settles O30: the strides in force are the operands or the stored ones, which the invariant makes wide enough. -/
theorem narrowStrideRaisesGeometryError : Obligations.NarrowStrideRaisesGeometryError := by
  rintro s b sv dv hi hv hmem rfl rfl
  have hentry := entryOf_of_mem_pfcFormats hmem
  obtain ⟨_, _, _, hgeom, hdst⟩ := Session.ok_valid hi.session hv
  obtain ⟨_, _, _, _, _, _, _, hsrc⟩ := (validGeometry_iff hentry).1 hgeom
  have hs : s.geom.s = _ := strideOr_eq _ _
  have hd : s.geom.d = _ := strideOr_eq _ _
  refine ⟨hs, hd, fun hnarrow => ?_, fun h0 => ?_, fun h1 => ?_, onlySetvtAndResetWriteTheSession.2 s⟩
  · exact exec_convert_of_raises (convertCheck_of_narrow hv hentry (by rw [hs, hd]; exact hnarrow))
  · rw [if_pos h0]
    exact hsrc
  · rw [if_pos h1]
    simp only [sext32, zext32] at hdst
    omega

/-- Settles O31: the needed lengths by kernel are those CONVERT computes from SESS_FORMAT. -/
theorem shortWindowRaisesBufferError : Obligations.ShortWindowRaisesBufferError := by
  intro s hi hv hs hd hshort
  obtain ⟨e, he, hk, _⟩ := Session.ok_valid hi.session hv
  obtain ⟨hact, hneed⟩ := srcActive_srcBytes_of_entry (g := s.geom) he hk
  refine exec_convert_of_raises (convertCheck_of_short hv he (hact ▸ hs) hd ?_)
  rw [← hneed, Geom.srcBytes_eq]
  exact hshort

/-- Settles O33: the kernel runs to its end and leaves every inactive byte. -/
theorem readyConvertCompletesAndKeepsOtherBytes : Obligations.ReadyConvertCompletesAndKeepsOtherBytes := by
  intro s hi hr
  obtain ⟨q, _, hp, ht⟩ := hr.runs hi
  exact ⟨q.dst, ht, fun a ha => hp.inactive ha⟩

/-- Settles O29: SESS_VALID is the first check. -/
theorem convertBeforeSetvtIsNotReady : Obligations.ConvertBeforeSetvtIsNotReady := by
  intro s hv
  have hcheck : convertCheck s.session s.latched = .raises .notReady := by
    simp only [convertCheck, hv, if_true]
  exact exec_convert_of_raises hcheck

end Sys2Proof.Machine
end

section
/-! SUPPORT. No step faults under the invariant (60_exceptions.md R214), and which status each command's checks can raise
(R204). -/

namespace Sys2Proof.Machine

/-! ### Faults -/

theorem noFault_next (t : State) : NoFault (.next t) := by
  rintro _ ⟨⟩

/-- Under the invariant no completion faults: a legal word runs its command, an illegal one only raises a status. -/
theorem completePending_noFault {s : State} (hi : s.Inv) : NoFault (completePending s) := by
  unfold completePending
  split
  · exact exec_noFault hi _
  · exact noFault_next _

theorem hostStep_noFault (s : State) : NoFault (hostStep s) := by
  unfold hostStep
  split
  · exact noFault_next _
  · exact hostMove_noFault _ _

/-! ### Failing commands -/

/-- A command that ends with a code other than OK has raised it, since a session is stored and a frame is written only
on the way to OK (60_exceptions.md R203). -/
theorem exec_eq_raise {i : Instr} {s t : State} (h : exec i s = .next t) (hfail : t.code ≠ .ok) :
    t = s.raise t.code := by
  obtain ⟨x, rfl⟩ | ⟨r, rfl⟩ | ⟨_, ss, r, _, rfl⟩ | ⟨_, g, _, _, q, _, ⟨_, rfl⟩ | ⟨_, rfl⟩⟩ := exec_cases h
  · rfl
  · exact absurd rfl hfail
  · exact absurd rfl hfail
  · exact absurd rfl hfail
  · exact absurd rfl hfail

/-! ### The codes of each command (60_exceptions.md R204) -/

theorem enumerate_code (s : State) : (enumerate s).code = .ok ∨ (enumerate s).code = .noMoreFormats := by
  cases h : rom[zext32 s.latched.arg0]? with
  | none => exact .inr (by rw [enumerate_of_none h, State.raise_code])
  | some e => exact .inl (by rw [enumerate_of_entry h, State.complete_code])

/-- SETVT's checks raise UNSUPPORTED_FORMAT on an unregistered identifier and GEOMETRY_ERROR otherwise. -/
theorem negotiate_raises {cfg : Config} {a : Args} {x : Status} (h : negotiate cfg a = .raises x) :
    x = .unsupportedFormat ∨ x = .geometryError := by
  cases he : entryOf a.arg0 with
  | none =>
    rw [negotiate_of_unregistered he] at h
    exact .inl (Negotiation.raises.inj h).symm
  | some e =>
    by_cases hok : SetvtOk cfg e.bpp a
    · rw [negotiate_of_setvtOk he hok] at h
      cases h
    · rw [negotiate_of_not_setvtOk he hok] at h
      exact .inr (Negotiation.raises.inj h).symm

/-- CONVERT's checks raise NOT_READY without a session, GEOMETRY_ERROR on a narrow stride and BUFFER_ERROR on a short
window. -/
theorem convertCheck_raises {ss : Session} {a : Args} {x : Status} (h : convertCheck ss a = .raises x) :
    x = .notReady ∨ x = .geometryError ∨ x = .bufferError := by
  simp only [convertCheck] at h
  split at h
  case isTrue => exact .inl (ConvertCheck.raises.inj h).symm
  case isFalse =>
    split at h
    case h_1 => cases h
    case h_2 =>
      split_ifs at h
      · exact .inr (.inl (ConvertCheck.raises.inj h).symm)
      · exact .inr (.inl (ConvertCheck.raises.inj h).symm)
      · exact .inr (.inr (ConvertCheck.raises.inj h).symm)
      · exact .inr (.inr (ConvertCheck.raises.inj h).symm)

/-- A CONVERT whose checks pass ends with OK if it ends (43_session.md R188). -/
theorem convertFrame_code {g : Geom} {s t : State} (h : convertFrame g s = .next t) : t.code = .ok := by
  unfold convertFrame at h
  split at h
  case isFalse => cases h
  case isTrue =>
    split at h
    case h_1 => cases h
    case h_2 => split at h <;> cases h <;> rfl

end Sys2Proof.Machine
end

section
/-! The statements of 60_exceptions.md. -/

namespace Sys2Proof.Machine

/-- Settles O12: neither the completion of the pending command nor a host move faults. -/
theorem noStepFaults : Obligations.NoStepFaults := by
  intro s hi
  obtain ⟨_, _, he⟩ | ⟨_, n, _, he⟩ | ⟨_, he⟩ := step_cases s <;> rw [he]
  · exact completePending_noFault hi
  · exact hostStep_noFault _
  · exact hostStep_noFault _

/-- Settles O16: a legal word that fails has raised its code, and so has an illegal one. -/
theorem failedCommandWritesOnlyStatusAndResult : Obligations.FailedCommandWritesOnlyStatusAndResult := by
  intro s t h hfail
  obtain ⟨i, _, he⟩ | rfl := completePending_cases h
  · exact exec_eq_raise he hfail
  · rfl

/-- Settles O17, command by command, from what its checks can raise. -/
theorem statusCodesEachCommandCanProduce : Obligations.StatusCodesEachCommandCanProduce := by
  intro i s t h
  cases i with
  | enum =>
    cases (exec_enumerate (.inl rfl) s).symm.trans h
    exact enumerate_code s
  | senum =>
    cases (exec_enumerate (.inr rfl) s).symm.trans h
    exact enumerate_code s
  | issup =>
    cases (exec_isSupported (.inl rfl) s).symm.trans h
    rfl
  | sissup =>
    cases (exec_isSupported (.inr rfl) s).symm.trans h
    rfl
  | lookup =>
    cases he : entryOf s.latched.arg0 with
    | none =>
      cases (exec_lookup_of_none he).symm.trans h
      exact .inr rfl
    | some e =>
      cases (exec_lookup_of_entry he).symm.trans h
      exact .inl rfl
  | resolve =>
    cases (exec_resolve s).symm.trans h
    cases s.resolved with
    | none => exact .inr rfl
    | some r => exact .inl rfl
  | setvt =>
    cases hn : negotiate s.cfg s.latched with
    | raises x =>
      cases (exec_setvt_of_raises hn).symm.trans h
      exact .inr (negotiate_raises hn)
    | stores ss r =>
      cases (exec_setvt_of_stores hn).symm.trans h
      exact .inl rfl
  | convert =>
    simp only [exec, execConvert] at h
    split at h
    case h_1 x hc =>
      cases h
      exact .inr (convertCheck_raises hc)
    case h_2 => cases h
    case h_3 => exact .inl (convertFrame_code h)

end Sys2Proof.Machine
end

section
/-! SUPPORT. What a reset leaves; which accesses of the host a pending CONVERT has borrowed the byte of, and what each
access does then and otherwise; a CONVERT whose host broke its duty; and a command's latency with no host move to come
(70_reset_and_hazards.md R231, R232, R241, R245; 93_implementation_defined.md I4). -/

namespace Sys2Proof.Machine

variable {s : State} {off : Nat}

/-! ### Reset -/

theorem State.convertPending_iff :
    s.convertPending = true ↔ s.busy = true ∧ decode s.cmd = .command .convert := by
  simp [State.convertPending]

/-- After a reset every register reads as in `State.reset` (70_reset_and_hazards.md R231). -/
theorem readReg_hardReset (s : State) (r : Reg) : readReg s.hardReset r = 0#32 := by
  rw [← readReg_reset r]
  cases r <;> rfl

theorem hostMove_rst_plain (h : s.convertPending = false) : hostMove .rst s = .next s.hardReset :=
  if_neg (by simp [h])

theorem hostMove_rst_convert (h : s.convertPending = true) :
    hostMove .rst s = .next (s.scramble s.geom).hardReset :=
  if_pos h

/-! ### Host accesses to the windows -/

theorem State.srcBorrowed_iff :
    s.srcBorrowed off = true ↔ s.busy = true ∧ decode s.cmd = .command .convert ∧ off < s.geom.srcLen := by
  rw [State.srcBorrowed, Bool.and_eq_true, State.convertPending_iff, decide_eq_true_eq, and_assoc]

theorem State.dstBorrowed_iff :
    s.dstBorrowed off = true ↔ s.busy = true ∧ decode s.cmd = .command .convert ∧ off < s.geom.dstLen := by
  rw [State.dstBorrowed, Bool.and_eq_true, State.convertPending_iff, decide_eq_true_eq, and_assoc]

theorem State.not_srcBorrowed (h : s.busy = false ∨ decode s.cmd ≠ .command .convert ∨ s.geom.srcLen ≤ off) :
    ¬ s.srcBorrowed off = true := by
  rwa [State.srcBorrowed_iff, not_and_or, not_and_or, Bool.not_eq_true, not_lt]

theorem State.not_dstBorrowed (h : s.busy = false ∨ decode s.cmd ≠ .command .convert ∨ s.geom.dstLen ≤ off) :
    ¬ s.dstBorrowed off = true := by
  rwa [State.dstBorrowed_iff, not_and_or, not_and_or, Bool.not_eq_true, not_lt]

theorem hostMove_srcLoad (ho : off < s.src.len) :
    hostMove (.srcLoad off) s = .next { s with readData := (s.src.read off).setWidth 32 } :=
  if_pos ho

theorem hostMove_srcStore_borrowed (v : Byte) (ho : off < s.src.len) (hb : s.srcBorrowed off = true) :
    hostMove (.srcStore off v) s = .next { s.disturb with src := s.src.write off v } :=
  (if_pos ho).trans (if_pos hb)

theorem hostMove_srcStore_plain (v : Byte) (ho : off < s.src.len) (hb : ¬ s.srcBorrowed off = true) :
    hostMove (.srcStore off v) s = .next { s with src := s.src.write off v } :=
  (if_pos ho).trans (if_neg hb)

theorem hostMove_dstStore_borrowed (v : Byte) (ho : off < s.dst.len) (hb : s.dstBorrowed off = true) :
    hostMove (.dstStore off v) s = .next (s.disturb.freeDstByte off) :=
  (if_pos ho).trans (if_pos hb)

theorem hostMove_dstStore_plain (v : Byte) (ho : off < s.dst.len) (hb : ¬ s.dstBorrowed off = true) :
    hostMove (.dstStore off v) s = .next { s with dst := s.dst.write off v } :=
  (if_pos ho).trans (if_neg hb)

theorem hostMove_dstLoad_borrowed (ho : off < s.dst.len) (hb : s.dstBorrowed off = true) :
    hostMove (.dstLoad off) s = .next { s.disturb.freeDstByte off with
      readData := (Config.freeByte (s.disturb.freeDstByte off).draws).setWidth 32
      draws := (s.disturb.freeDstByte off).draws + 1 } :=
  (if_pos ho).trans (if_pos hb)

theorem hostMove_dstLoad_plain (ho : off < s.dst.len) (hb : ¬ s.dstBorrowed off = true) :
    hostMove (.dstLoad off) s = .next { s with readData := (s.dst.read off).setWidth 32 } :=
  (if_pos ho).trans (if_neg hb)

/-- A breach at a destination byte opens that byte and the active bytes, and no other (93_implementation_defined.md
I4). -/
theorem State.disturb_freeDstByte_frame {a : Nat} (hne : a ≠ off) (ha : ¬ DstWindowActive s a) :
    (s.disturb.freeDstByte off).dst.read a = s.dst.read a :=
  (Window.read_write_ne _ _ hne).trans (State.scramble_frame ha)

/-! ### A CONVERT whose host broke its duty -/

theorem ConvertReady.windowsBound (hr : ConvertReady s) : s.windowsBound s.geom = true := by
  simp only [State.windowsBound, hr.srcBound, hr.dstBound, decide_true, Bool.and_self]

/-- A disturbed CONVERT whose checks pass and whose kernel ends completes with free values in place of the kernel's
output (93_implementation_defined.md I4). -/
theorem exec_convert_disturbed {g : Geom} {q : Ports} (hd : s.disturbed = true)
    (hc : convertCheck s.session s.latched = .runs g) (hb : s.windowsBound g = true)
    (hq : runKernel g (s.ports g) = some q) : exec .convert s = .next ((s.scramble g).complete 0) := by
  simp only [exec, execConvert, hc, convertFrame, hb, hq, hd, if_true]

/-! ### The latency of a command -/

/-- With no host move to come, the steps before the completion only count the latency down
(70_reset_and_hazards.md R245). -/
theorem run_latency {n : Nat} (hb : s.busy = true) (hd : s.delay = n) (hin : s.input = []) :
    Host.Core.run core n s = .next { s with delay := 0 } := by
  induction n generalizing s with
  | zero =>
    have hs : s = { s with delay := 0 } := by rw [← hd]
    exact congrArg Host.Outcome.next hs
  | succ n ih =>
    have hstep : step s = .next { s with delay := n } := (step_latency hb hd).trans (hostStep_nil hin)
    exact (run_next core hstep).trans (ih (s := { s with delay := n }) hb rfl hin)

end Sys2Proof.Machine
end

section
/-! The statements of 70_reset_and_hazards.md. -/

namespace Sys2Proof.Machine

/-- Settles O10: with a CONVERT pending, RST frees the active bytes of its destination window before it clears the
registers; otherwise it only clears them. -/
theorem rstClearsEveryRegister : Obligations.RstClearsEveryRegister := by
  intro s
  cases hp : s.convertPending with
  | false =>
    exact ⟨s.hardReset, hostMove_rst_plain hp, readReg_hardReset s, rfl, rfl, rfl, rfl, rfl, rfl, fun _ _ => rfl⟩
  | true =>
    obtain ⟨hb, hc⟩ := State.convertPending_iff.1 hp
    exact ⟨(s.scramble s.geom).hardReset, hostMove_rst_convert hp, readReg_hardReset _, rfl, rfl, rfl, rfl, rfl, rfl,
      fun a ha => State.scramble_frame fun hw => ha ⟨hb, hc, hw⟩⟩

/-- Settles O38: a whole run of the kernel keeps count of its accesses, and `readCount` is the count of R246 for each
value of SESS_KERNEL. -/
theorem portAccessCountsAreExact : Obligations.PortAccessCountsAreExact := by
  intro s hi hr
  obtain ⟨q, hq, hp, _⟩ := hr.runs hi
  refine ⟨q, hq, hp.nw, ?_⟩
  rw [hp.nr]
  cases hk : s.session.kernel <;> simp only [readCount, State.geom, convertGeom, hk]

/-- Settles O43: the checks and the kernel do not read `disturbed`, so the CONVERT completes; what it stores are free
values in the active bytes. -/
theorem disturbedConvertStillKeepsOtherBytes : Obligations.DisturbedConvertStillKeepsOtherBytes := by
  intro s hi hd hr
  have hi' : State.Inv { s with disturbed := false } := hi.congr rfl rfl rfl rfl
  obtain ⟨q, hq, _⟩ := hr.runs hi'
  exact ⟨_, exec_convert_disturbed hd (hr.check hi') hr.windowsBound hq, rfl, rfl, rfl, rfl, rfl, rfl,
    fun a ha => State.scramble_frame fun hw => ha hw.1⟩

/-- Settles O56: `delay` steps count the latency down, and the next one is the completion. -/
theorem pendingCommandCompletes : Obligations.PendingCommandCompletes := by
  intro s hi hb hin
  rw [run_add core (run_latency hb rfl hin)]
  have hstep : step { s with delay := 0 } = completePending { s with delay := 0 } := step_completes hb rfl
  obtain ⟨t, ht, hidle, _⟩ | ⟨⟨hconv, hg⟩, hstop⟩ :=
    completePending_ends (s := { s with delay := 0 }) (hi.congr rfl rfl rfl rfl)
  · exact .inl ⟨t, run_next core (hstep.trans ht), hidle⟩
  · exact .inr ⟨hconv, hg, run_refused core (hstep.trans hstop)⟩

/-- Settles O60, access by access: a byte the CONVERT has borrowed is touched in breach of duty, any other plainly. -/
theorem hostAccessDuringConvertDisturbsIt : Obligations.HostAccessDuringConvertDisturbsIt := by
  intro s off v
  refine ⟨hostMove_srcLoad, fun hb hc => ⟨fun ho hlt => ?_, fun ho hlt => ?_⟩, fun hn ho => ?_, fun hn ho => ?_⟩
  · have hbor : s.srcBorrowed off = true := State.srcBorrowed_iff.2 ⟨hb, hc, hlt⟩
    exact ⟨_, _, hostMove_srcStore_borrowed v ho hbor, fun a ha => State.scramble_frame ha⟩
  · have hbor : s.dstBorrowed off = true := State.dstBorrowed_iff.2 ⟨hb, hc, hlt⟩
    exact ⟨⟨_, _, hostMove_dstStore_borrowed v ho hbor, fun a hne ha => State.disturb_freeDstByte_frame hne ha⟩,
      ⟨_, _, _, hostMove_dstLoad_borrowed ho hbor, fun a hne ha => State.disturb_freeDstByte_frame hne ha⟩⟩
  · exact hostMove_srcStore_plain v ho (State.not_srcBorrowed hn)
  · have hfree : ¬ s.dstBorrowed off = true := State.not_dstBorrowed hn
    exact ⟨hostMove_dstStore_plain v ho hfree, hostMove_dstLoad_plain ho hfree⟩

end Sys2Proof.Machine
end

section
/-! SUPPORT. When a declared window is longer than the memory the host bound, and the CONVERT that meets one
(93_implementation_defined.md I2). -/

namespace Sys2Proof.Machine

variable {s : State} {g : Geom}

theorem State.windowsBound_eq_false_iff :
    s.windowsBound g = false ↔ s.src.len < g.srcLen ∨ s.dst.len < g.dstLen := by
  simp only [State.windowsBound, Bool.and_eq_false_iff, decide_eq_false_iff_not, not_le]

/-- A CONVERT whose checks pass on an unbound window is refused: the converse of `exec_refused`. -/
theorem exec_convert_refused (hc : convertCheck s.session s.latched = .runs g) (hb : s.windowsBound g = false) :
    exec .convert s = .refused .windowNotBound := by
  simp only [exec, execConvert, hc, convertFrame, hb, Bool.false_eq_true, if_false]

end Sys2Proof.Machine
end

section
/-! The statement of 93_implementation_defined.md. -/

namespace Sys2Proof.Machine

/-- Settles O32: either window longer than its memory makes `windowsBound` false, which is what the body of CONVERT
tests once the checks have passed. -/
theorem unboundWindowIsRefused : Obligations.UnboundWindowIsRefused := by
  intro s g hc hlong
  exact exec_convert_refused hc (State.windowsBound_eq_false_iff.2 hlong)

end Sys2Proof.Machine
end
